-- ==== Sys2Proof/Word.lean ====
section
/-! DEFINITION. The machine's word types (spec rules R6 to R8, R20, R24): unsigned bit vectors of the widths the spec
gives, and register numbers. -/
namespace Sys2Proof

/-- An 8-bit value: a `V` register, a timer, a memory cell, the immediate `NN` (R20, R29, R41, R98). -/
abbrev Byte := BitVec 8

/-- A 16-bit value: `I`, `PC`, a stack entry, the opcode (R24, R26, R27, R37). -/
abbrev Word := BitVec 16

/-- The 12-bit immediate `NNN` (R97). -/
abbrev Imm12 := BitVec 12

/-- The 4-bit immediate `N`, a count of sprite rows (R96, R98). -/
abbrev Nibble := BitVec 4

/-- A register number 0..15, what the opcode nibbles `X` and `Y` select (R20, R99). -/
abbrev Reg := Fin 16

end Sys2Proof
end

