-- ==== Sys2Proof/Syntax.lean ====
section
/-! DEFINITION. The 35 instruction forms of spec rule R100, one constructor for each row of spec/opcode_table.json, in the
table's order. Operands are the fields the row's format gives (R91 to R96), ignored fields included (R104). -/
namespace Sys2Proof

/-- An instruction: one constructor per row of the opcode map (R100). -/
inductive Instr where
  /-- 0x00E0 `CLS` (R220). -/
  | cls
  /-- 0x00EE `RET` (R140). -/
  | ret
  /-- 0x0NNN, other than 0x00E0 and 0x00EE: `SYS nnn` (R142). -/
  | sys (nnn : Imm12)
  /-- 0x1NNN `JP nnn` (R144). -/
  | jp (nnn : Imm12)
  /-- 0x2NNN `CALL nnn` (R146). -/
  | call (nnn : Imm12)
  /-- 0x3XNN `SE Vx, nn` (R160). -/
  | seImm (x : Reg) (nn : Byte)
  /-- 0x4XNN `SNE Vx, nn` (R161). -/
  | sneImm (x : Reg) (nn : Byte)
  /-- 0x5XY0 `SE Vx, Vy` (R162). -/
  | seReg (x y : Reg)
  /-- 0x6XNN `LD Vx, nn` (R170). -/
  | ldImm (x : Reg) (nn : Byte)
  /-- 0x7XNN `ADD Vx, nn` (R171). -/
  | addImm (x : Reg) (nn : Byte)
  /-- 0x8XY0 `LD Vx, Vy` (R172). -/
  | ldReg (x y : Reg)
  /-- 0x8XY1 `OR Vx, Vy` (R173). -/
  | orReg (x y : Reg)
  /-- 0x8XY2 `AND Vx, Vy` (R174). -/
  | andReg (x y : Reg)
  /-- 0x8XY3 `XOR Vx, Vy` (R175). -/
  | xorReg (x y : Reg)
  /-- 0x8XY4 `ADD Vx, Vy` (R177). -/
  | addReg (x y : Reg)
  /-- 0x8XY5 `SUB Vx, Vy` (R178). -/
  | sub (x y : Reg)
  /-- 0x8XY6 `SHR Vx`; the `Y` field is decoded and not used (R179, R104). -/
  | shr (x y : Reg)
  /-- 0x8XY7 `SUBN Vx, Vy` (R183). -/
  | subn (x y : Reg)
  /-- 0x8XYE `SHL Vx`; the `Y` field is decoded and not used (R184, R104). -/
  | shl (x y : Reg)
  /-- 0x9XY0 `SNE Vx, Vy` (R163). -/
  | sneReg (x y : Reg)
  /-- 0xANNN `LD I, nnn` (R200). -/
  | ldI (nnn : Imm12)
  /-- 0xBNNN `JP V0, nnn` (R148). -/
  | jpV0 (nnn : Imm12)
  /-- 0xCXNN `RND Vx, nn` (R185). -/
  | rnd (x : Reg) (nn : Byte)
  /-- 0xDXYN `DRW Vx, Vy, n` (R222). -/
  | drw (x y : Reg) (n : Nibble)
  /-- 0xEX9E `SKP Vx` (R240). -/
  | skp (x : Reg)
  /-- 0xEXA1 `SKNP Vx` (R241). -/
  | sknp (x : Reg)
  /-- 0xFX07 `LD Vx, DT` (R250). -/
  | ldVxDT (x : Reg)
  /-- 0xFX0A `LD Vx, K` (R244). -/
  | ldVxK (x : Reg)
  /-- 0xFX15 `LD DT, Vx` (R251). -/
  | ldDTVx (x : Reg)
  /-- 0xFX18 `LD ST, Vx` (R252). -/
  | ldSTVx (x : Reg)
  /-- 0xFX1E `ADD I, Vx` (R201). -/
  | addI (x : Reg)
  /-- 0xFX29 `LD F, Vx` (R202). -/
  | ldF (x : Reg)
  /-- 0xFX33 `LD B, Vx` (R203). -/
  | ldB (x : Reg)
  /-- 0xFX55 `LD [I], Vx` (R204). -/
  | storeRegs (x : Reg)
  /-- 0xFX65 `LD Vx, [I]` (R205). -/
  | loadRegs (x : Reg)
  deriving DecidableEq, Repr

end Sys2Proof
end

