-- ==== Sys2Proof/WellFormed.lean ====
section
/-! DEFINITION. Well-formedness of an instruction as syntax. The operand types already bound every field, so one check is
left: `SYS` is 0x0NNN *other than* 0x00E0 and 0x00EE (spec rules R100, R103), whose words are `CLS` and `RET`. -/
namespace Sys2Proof

/-- The instruction has a word of its own: a `SYS` is not spelled with the word of `CLS` or of `RET` (R100, R103). -/
def Instr.wf : Instr → Bool
  | .sys nnn => nnn != 0x0E0#12 && nnn != 0x0EE#12
  | _ => true

end Sys2Proof
end

