-- ==== Sys2Proof/Decode.lean ====
section
/-! DEFINITION. Decoding a word (spec rules R90 to R104), total on any bytes and rejecting by name, the rows' masks and
fixed bits (R100), and the encoder. -/
namespace Sys2Proof

/-- Why bytes are no instruction. -/
inductive DecodeError where
  /-- The word matches no row of the opcode map (R102); the step raises `UnknownOpcodeError` for it. -/
  | unknownOpcode (op : Word)
  /-- Fewer than the two bytes every instruction has (R90). -/
  | truncated
  deriving DecidableEq, Repr

/-! ## Fields (R8) -/

/-- `T = op[15:12]`. -/
def fieldT (op : Word) : Nibble := op.extractLsb' 12 4

/-- `X = op[11:8]` (R99). -/
def fieldX (op : Word) : Reg := (op.extractLsb' 8 4).toFin

/-- `Y = op[7:4]` (R99). -/
def fieldY (op : Word) : Reg := (op.extractLsb' 4 4).toFin

/-- `N = op[3:0]`. -/
def fieldN (op : Word) : Nibble := op.extractLsb' 0 4

/-- `NN = op[7:0]` (R98). -/
def fieldNN (op : Word) : Byte := op.extractLsb' 0 8

/-- `NNN = op[11:0]` (R97). -/
def fieldNNN (op : Word) : Imm12 := op.extractLsb' 0 12

/-! ## Decoding (R101) -/

/-- The nine legal sub-opcodes of `T = 8` (R101 (4)). -/
def decode8 (op : Word) : Except DecodeError Instr :=
  match fieldN op with
  | 0x0#4 => .ok (.ldReg (fieldX op) (fieldY op))
  | 0x1#4 => .ok (.orReg (fieldX op) (fieldY op))
  | 0x2#4 => .ok (.andReg (fieldX op) (fieldY op))
  | 0x3#4 => .ok (.xorReg (fieldX op) (fieldY op))
  | 0x4#4 => .ok (.addReg (fieldX op) (fieldY op))
  | 0x5#4 => .ok (.sub (fieldX op) (fieldY op))
  | 0x6#4 => .ok (.shr (fieldX op) (fieldY op))
  | 0x7#4 => .ok (.subn (fieldX op) (fieldY op))
  | 0xE#4 => .ok (.shl (fieldX op) (fieldY op))
  | _ => .error (.unknownOpcode op)

/-- The two legal function bytes of `T = 0xE` (R101 (5)). -/
def decodeE (op : Word) : Except DecodeError Instr :=
  match fieldNN op with
  | 0x9E#8 => .ok (.skp (fieldX op))
  | 0xA1#8 => .ok (.sknp (fieldX op))
  | _ => .error (.unknownOpcode op)

/-- The nine legal function bytes of `T = 0xF` (R101 (6)). -/
def decodeF (op : Word) : Except DecodeError Instr :=
  match fieldNN op with
  | 0x07#8 => .ok (.ldVxDT (fieldX op))
  | 0x0A#8 => .ok (.ldVxK (fieldX op))
  | 0x15#8 => .ok (.ldDTVx (fieldX op))
  | 0x18#8 => .ok (.ldSTVx (fieldX op))
  | 0x1E#8 => .ok (.addI (fieldX op))
  | 0x29#8 => .ok (.ldF (fieldX op))
  | 0x33#8 => .ok (.ldB (fieldX op))
  | 0x55#8 => .ok (.storeRegs (fieldX op))
  | 0x65#8 => .ok (.loadRegs (fieldX op))
  | _ => .error (.unknownOpcode op)

/-- The decode algorithm of R101: the two exact words first, then the leading nibble, then the sub-opcode or function byte
where the format has one; every other word is illegal (R102). -/
def decodeWord (op : Word) : Except DecodeError Instr :=
  if op = 0x00E0#16 then .ok .cls
  else if op = 0x00EE#16 then .ok .ret
  else
    match fieldT op with
    | 0x0#4 => .ok (.sys (fieldNNN op))
    | 0x1#4 => .ok (.jp (fieldNNN op))
    | 0x2#4 => .ok (.call (fieldNNN op))
    | 0x3#4 => .ok (.seImm (fieldX op) (fieldNN op))
    | 0x4#4 => .ok (.sneImm (fieldX op) (fieldNN op))
    | 0x5#4 => if fieldN op = 0#4 then .ok (.seReg (fieldX op) (fieldY op)) else .error (.unknownOpcode op)
    | 0x6#4 => .ok (.ldImm (fieldX op) (fieldNN op))
    | 0x7#4 => .ok (.addImm (fieldX op) (fieldNN op))
    | 0x8#4 => decode8 op
    | 0x9#4 => if fieldN op = 0#4 then .ok (.sneReg (fieldX op) (fieldY op)) else .error (.unknownOpcode op)
    | 0xA#4 => .ok (.ldI (fieldNNN op))
    | 0xB#4 => .ok (.jpV0 (fieldNNN op))
    | 0xC#4 => .ok (.rnd (fieldX op) (fieldNN op))
    | 0xD#4 => .ok (.drw (fieldX op) (fieldY op) (fieldN op))
    | 0xE#4 => decodeE op
    | 0xF#4 => decodeF op
    | _ => .error (.unknownOpcode op)

/-- The 16-bit word of two bytes, high byte first: `memory[PC] << 8 | memory[PC+1]` (R64, R90). -/
def wordOfBytes (hi lo : Byte) : Word := hi ++ lo

/-- Decode the instruction at the head of a byte sequence, and give back the bytes after it (R64, R90). -/
def decode : List Byte → Except DecodeError (Instr × List Byte)
  | hi :: lo :: rest =>
    match decodeWord (wordOfBytes hi lo) with
    | .ok i => .ok (i, rest)
    | .error e => .error e
  | _ => .error .truncated

/-! ## The opcode map's masks and fixed bits (R91, R100) -/

/-- The row's `mask` (R100). -/
def Instr.mask : Instr → Word
  | .cls | .ret => 0xFFFF#16
  | .sys _ | .jp _ | .call _ | .ldI _ | .jpV0 _ => 0xF000#16
  | .seImm _ _ | .sneImm _ _ | .ldImm _ _ | .addImm _ _ | .rnd _ _ | .drw _ _ _ => 0xF000#16
  | .seReg _ _ | .sneReg _ _ | .ldReg _ _ | .orReg _ _ | .andReg _ _ | .xorReg _ _ | .addReg _ _ | .sub _ _ | .shr _ _
  | .subn _ _ | .shl _ _ => 0xF00F#16
  | .skp _ | .sknp _ | .ldVxDT _ | .ldVxK _ | .ldDTVx _ | .ldSTVx _ | .addI _ | .ldF _ | .ldB _ | .storeRegs _
  | .loadRegs _ => 0xF0FF#16

/-- The row's `match`: the value of the bits under the mask (R100). -/
def Instr.fixedBits : Instr → Word
  | .cls => 0x00E0#16
  | .ret => 0x00EE#16
  | .sys _ => 0x0000#16
  | .jp _ => 0x1000#16
  | .call _ => 0x2000#16
  | .seImm _ _ => 0x3000#16
  | .sneImm _ _ => 0x4000#16
  | .seReg _ _ => 0x5000#16
  | .ldImm _ _ => 0x6000#16
  | .addImm _ _ => 0x7000#16
  | .ldReg _ _ => 0x8000#16
  | .orReg _ _ => 0x8001#16
  | .andReg _ _ => 0x8002#16
  | .xorReg _ _ => 0x8003#16
  | .addReg _ _ => 0x8004#16
  | .sub _ _ => 0x8005#16
  | .shr _ _ => 0x8006#16
  | .subn _ _ => 0x8007#16
  | .shl _ _ => 0x800E#16
  | .sneReg _ _ => 0x9000#16
  | .ldI _ => 0xA000#16
  | .jpV0 _ => 0xB000#16
  | .rnd _ _ => 0xC000#16
  | .drw _ _ _ => 0xD000#16
  | .skp _ => 0xE09E#16
  | .sknp _ => 0xE0A1#16
  | .ldVxDT _ => 0xF007#16
  | .ldVxK _ => 0xF00A#16
  | .ldDTVx _ => 0xF015#16
  | .ldSTVx _ => 0xF018#16
  | .addI _ => 0xF01E#16
  | .ldF _ => 0xF029#16
  | .ldB _ => 0xF033#16
  | .storeRegs _ => 0xF055#16
  | .loadRegs _ => 0xF065#16

/-! ## Encoding: each format of R91 lays its fields out, high bits first -/

/-- The nibble of a register number. -/
def nibbleOf (r : Reg) : Nibble := BitVec.ofFin r

/-- Format `A` (R93). -/
def encodeA (t : Nibble) (nnn : Imm12) : Word := t ++ nnn

/-- Format `XI` (R94). -/
def encodeXI (t : Nibble) (x : Reg) (nn : Byte) : Word := t ++ (nibbleOf x ++ nn)

/-- Formats `XY` and `XYN` (R95, R96): the low nibble is the sub-opcode or the field `N`. -/
def encodeXY (t : Nibble) (x y : Reg) (n : Nibble) : Word := t ++ (nibbleOf x ++ (nibbleOf y ++ n))

/-- The word of an instruction (R91 to R96, R100). -/
def encode : Instr → Word
  | .cls => 0x00E0#16
  | .ret => 0x00EE#16
  | .sys nnn => encodeA 0x0#4 nnn
  | .jp nnn => encodeA 0x1#4 nnn
  | .call nnn => encodeA 0x2#4 nnn
  | .seImm x nn => encodeXI 0x3#4 x nn
  | .sneImm x nn => encodeXI 0x4#4 x nn
  | .seReg x y => encodeXY 0x5#4 x y 0x0#4
  | .ldImm x nn => encodeXI 0x6#4 x nn
  | .addImm x nn => encodeXI 0x7#4 x nn
  | .ldReg x y => encodeXY 0x8#4 x y 0x0#4
  | .orReg x y => encodeXY 0x8#4 x y 0x1#4
  | .andReg x y => encodeXY 0x8#4 x y 0x2#4
  | .xorReg x y => encodeXY 0x8#4 x y 0x3#4
  | .addReg x y => encodeXY 0x8#4 x y 0x4#4
  | .sub x y => encodeXY 0x8#4 x y 0x5#4
  | .shr x y => encodeXY 0x8#4 x y 0x6#4
  | .subn x y => encodeXY 0x8#4 x y 0x7#4
  | .shl x y => encodeXY 0x8#4 x y 0xE#4
  | .sneReg x y => encodeXY 0x9#4 x y 0x0#4
  | .ldI nnn => encodeA 0xA#4 nnn
  | .jpV0 nnn => encodeA 0xB#4 nnn
  | .rnd x nn => encodeXI 0xC#4 x nn
  | .drw x y n => encodeXY 0xD#4 x y n
  | .skp x => encodeXI 0xE#4 x 0x9E#8
  | .sknp x => encodeXI 0xE#4 x 0xA1#8
  | .ldVxDT x => encodeXI 0xF#4 x 0x07#8
  | .ldVxK x => encodeXI 0xF#4 x 0x0A#8
  | .ldDTVx x => encodeXI 0xF#4 x 0x15#8
  | .ldSTVx x => encodeXI 0xF#4 x 0x18#8
  | .addI x => encodeXI 0xF#4 x 0x1E#8
  | .ldF x => encodeXI 0xF#4 x 0x29#8
  | .ldB x => encodeXI 0xF#4 x 0x33#8
  | .storeRegs x => encodeXI 0xF#4 x 0x55#8
  | .loadRegs x => encodeXI 0xF#4 x 0x65#8

/-- The high byte of a word, which stands at the lower address (R64). -/
def highByte (op : Word) : Byte := op.extractLsb' 8 8

/-- The low byte of a word, which stands at the higher address (R64). -/
def lowByte (op : Word) : Byte := op.extractLsb' 0 8

/-- The two bytes of a word as memory holds them, lowest address first (R64, R90). -/
def bytesOfWord (op : Word) : List Byte := [highByte op, lowByte op]

/-- The word whose low `nbits` bits are those of `w` and whose other bits are 0. -/
def tableWord (nbits w : Nat) : Word := BitVec.ofNat 16 (w % 2 ^ nbits)

/-- What the decoder reads from the instruction whose bits are `w`, numbered as spec/opcode_table.json numbers them: the
word is laid out high byte first (R64) and given to `decode`. -/
def decodeTableWord (nbits w : Nat) : Option Instr :=
  match decode (bytesOfWord (tableWord nbits w)) with
  | .ok r => some r.1
  | .error _ => none

end Sys2Proof
end

