-- ==== Sys2Proof/Config.lean ====
section
/-! DEFINITION. The sizes the hardware fixes (spec rule R5) and the one value it leaves free: the random byte. The font
table, a parameter with a default (R63), is `Sys2Proof.Machine.font` in Machine/Font.lean. -/
namespace Sys2Proof

/-- `MEM_SIZE`: addresses 0..4095 (R5, R60). -/
def Config.memSize : Nat := 4096

/-- `PROG_BASE` as an address: where `load` puts the program (R5, R305). -/
def Config.progBase : Nat := 0x200

/-- `PROG_BASE` as the reset value of `PC` (R24, R304). -/
def Config.resetPC : Word := 0x200#16

/-- `ROM_MAX`: the longest program image `load` accepts (R5, R306). -/
def Config.romMax : Nat := 3584

/-- `STACK_DEPTH` (R5, R27). -/
def Config.stackDepth : Nat := 16

/-- The FREE VALUE of this model: the byte `random_byte()` returns (`RAND`, rules R34 and R185), one for each draw. It has
no body, so nothing can be proved of any value of it beyond its width. Draw number `k` of a run is `randByte k`; the
machine's `draws` field says which draw comes next (assumption log 3). -/
opaque Config.randByte : Nat → Byte

end Sys2Proof
end

