-- ==== Sys2Proof/Machine/State.lean ====
section
/-! DEFINITION. The machine's state (spec rules R20 to R42, table R40), its value after reset (R300), and the two reason
types of a step's outcome. A fault OF THE MACHINE (R260) is no `Fault` here: the spec describes its entry (R270, R271), so it
is a next state with `status = faulted` and the record in `fault`. -/
namespace Sys2Proof.Machine

/-- The run state `STATUS` (R38). -/
inductive RunStatus where
  | running
  | awaitingKey
  | faulted
  deriving DecidableEq, Repr

/-- The five causes of a fault (R260). -/
inductive Cause where
  | unknownOpcode
  | memoryAccess
  | stackOverflow
  | stackUnderflow
  | keyIndex
  deriving DecidableEq, Repr

/-- The fault record `FAULT` (R39, R267). Its fifth field, the numeric code, is the cause's: `Cause.code` in Machine/Ops.lean. -/
structure FaultRecord where
  /-- The cause's name. -/
  cause : Cause
  /-- The opcode, the address or the key number; 0 when the cause has none. -/
  info : Word
  /-- The address the faulting instruction was, or would have been, fetched from. -/
  faultPC : Word
  /-- The word fetched; none for a fault of the fetch itself (the valid bit of R267). -/
  faultOpcode : Option Word
  deriving DecidableEq, Repr

/-- `MEM` in canonical form (R41, R60): the cells that differ from what `reset` leaves there, addresses strictly rising. What
an unlisted address holds is `resetByte` in Machine/Font.lean. -/
abbrev Memory := List Host.Cell

/-- The frame buffer `FB` (R31): 32 rows of 64 one-bit cells; cell `x + 64*y` is bit `x` of row `y`. -/
abbrev FrameBuffer := Vector (BitVec 64) 32

/-- The key latch `KEYS` (R33): entry `k` is true while key `k` is pressed. -/
abbrev KeyLatch := Vector Bool 16

/-- All the state of the machine, under the spec's names (R9, R40). `draws` alone is the model's own. -/
structure State where
  /-- `V[0..15]`; `V[15]` is also the flag `VF` (R20, R22). -/
  v : Vector Byte 16
  /-- The index register `I` (R26). -/
  i : Word
  /-- The program counter `PC` (R24). -/
  pc : Word
  /-- The stack depth `SP`, 0..16 (R28). -/
  sp : Fin 17
  /-- The return addresses `STACK[0..15]` (R27). -/
  stack : Vector Word 16
  /-- The delay timer `DT` (R29). -/
  dt : Byte
  /-- The sound timer `ST` (R29). -/
  st : Byte
  /-- The frame buffer `FB` (R31). -/
  fb : FrameBuffer
  /-- The draw flag `DRAW` (R32). -/
  draw : Bool
  /-- The key latch `KEYS` (R33). -/
  keys : KeyLatch
  /-- The current opcode `OPCODE` (R37). -/
  opcode : Word
  /-- The run state `STATUS` (R38). -/
  status : RunStatus
  /-- The fault record `FAULT`, none until a fault (R39). -/
  fault : Option FaultRecord
  /-- The memory `MEM[0..4095]` (R41). -/
  mem : Memory
  /-- The output `PULSE` of the latest step (R30), kept here so that the host can observe it after the step (R308). -/
  pulse : Bool
  /-- How many random bytes have been drawn: the number of the next one (model's own; assumption log 3). -/
  draws : Nat
  deriving DecidableEq, Repr

/-- What stops the machine without a next state. There is no such thing on this hardware: each of the five errors of R260 has
an entry the spec describes and is a next state, so this type has no constructor and no step can answer a fault. -/
inductive Fault where
  deriving DecidableEq, Repr

/-- Why an instruction has no meaning in this model. -/
inductive Refusal where
  /-- Raised by an arm of `exec` whose instruction has no meaning yet, under the table's name for it; every instruction has its
  meaning, so no arm raises it. Safe: a refusal proves nothing about the hardware. -/
  | notModelled (mnemonic : String)
  deriving DecidableEq, Repr

/-- What executing an instruction, or a step, answers. -/
abbrev Result := Host.Outcome State Fault Refusal

/-- The machine right after `reset()` (R40, R300): everything 0 but `PC`, memory as reset leaves it, `STATUS = Running`. -/
def State.reset : State where
  v := Vector.replicate 16 0#8
  i := 0#16
  pc := Config.resetPC
  sp := 0
  stack := Vector.replicate 16 0#16
  dt := 0#8
  st := 0#8
  fb := Vector.replicate 32 0#64
  draw := false
  keys := Vector.replicate 16 false
  opcode := 0#16
  status := .running
  fault := none
  mem := []
  pulse := false
  draws := 0

end Sys2Proof.Machine
end

