-- ==== Sys2Proof/Machine/Font.lean ====
section
/-! DEFINITION. What memory holds after reset (spec rules R61 to R63, R300): the font table `FONT[0..79]` and zeros. -/
namespace Sys2Proof.Machine

/-- Glyphs 0 to 7 of the default font (R63). PRESUMED (assumption log 2): the spec supplies these bytes from general knowledge. -/
def fontLow : List Byte :=
  [0xF0#8, 0x90#8, 0x90#8, 0x90#8, 0xF0#8] ++ [0x20#8, 0x60#8, 0x20#8, 0x20#8, 0x70#8] ++
  [0xF0#8, 0x10#8, 0xF0#8, 0x80#8, 0xF0#8] ++ [0xF0#8, 0x10#8, 0xF0#8, 0x10#8, 0xF0#8] ++
  [0x90#8, 0x90#8, 0xF0#8, 0x10#8, 0x10#8] ++ [0xF0#8, 0x80#8, 0xF0#8, 0x10#8, 0xF0#8] ++
  [0xF0#8, 0x80#8, 0xF0#8, 0x90#8, 0xF0#8] ++ [0xF0#8, 0x10#8, 0x20#8, 0x40#8, 0x40#8]

/-- Glyphs 8 to F of the default font (R63). PRESUMED (assumption log 2). -/
def fontHigh : List Byte :=
  [0xF0#8, 0x90#8, 0xF0#8, 0x90#8, 0xF0#8] ++ [0xF0#8, 0x90#8, 0xF0#8, 0x10#8, 0xF0#8] ++
  [0xF0#8, 0x90#8, 0xF0#8, 0x90#8, 0x90#8] ++ [0xE0#8, 0x90#8, 0xE0#8, 0x90#8, 0xE0#8] ++
  [0xF0#8, 0x80#8, 0x80#8, 0x80#8, 0xF0#8] ++ [0xE0#8, 0x90#8, 0x90#8, 0x90#8, 0xE0#8] ++
  [0xF0#8, 0x80#8, 0xF0#8, 0x80#8, 0xF0#8] ++ [0xF0#8, 0x80#8, 0xF0#8, 0x80#8, 0x80#8]

/-- The font table `FONT[0..79]`, glyph `d` at `5d .. 5d+4` (R62, R63). -/
def font : List Byte := fontLow ++ fontHigh

/-- What an address holds after reset, hence what an unlisted address of a `Memory` reads as: `FONT[a]` for `a` in 0..79, else 0
(R300). -/
def resetByte (a : Nat) : Byte := font.getD a 0#8

end Sys2Proof.Machine
end

