-- ==== Sys2Proof/Machine/Ops.lean ====
section
/-! DEFINITION. The named operations every meaning is written over: memory (spec rules R10, R67 to R69), registers (R20),
the call stack (R27, R28), the frame buffer (R31), taking a fault (R270, R271), the phases of a step around the execute phase
(R121, R122, R125) and the timer tick (R275). -/
namespace Sys2Proof.Machine

/-! ## Memory (R60, R69): single bytes, no wrapping, no protection -/

/-- `MEM[a]`: the cell's listed value, or what reset leaves there. -/
def Memory.read : Memory → Nat → Byte
  | [], a => resetByte a
  | (b, w) :: m, a => if a = b then w else Memory.read m a

/-- `MEM[a] <- x`, keeping the canonical form: the cell is unlisted exactly when `x` is what reset leaves there. -/
def Memory.write : Memory → Nat → Byte → Memory
  | [], a, x => if x = resetByte a then [] else [(a, x)]
  | (b, w) :: m, a, x =>
    if a < b then if x = resetByte a then (b, w) :: m else (a, x) :: (b, w) :: m
    else if a = b then if x = resetByte a then m else (a, x) :: m
    else (b, w) :: Memory.write m a x

/-- The `n` bytes from `a` upward, lowest address first. -/
def Memory.readBytes (m : Memory) (a : Nat) : Nat → List Byte
  | 0 => []
  | n + 1 => Memory.read m a :: Memory.readBytes m (a + 1) n

/-- Write a list of bytes from `a` upward, the first at the lowest address. -/
def Memory.writeBytes : Memory → Nat → List Byte → Memory
  | m, _, [] => m
  | m, a, x :: xs => Memory.writeBytes (Memory.write m a x) (a + 1) xs

/-- Every entry's address is above `lo`, inside the address space, and rising; no entry equals what reset leaves there. -/
def Memory.wfAbove (lo : Option Nat) : Memory → Bool
  | [] => true
  | (a, x) :: m => (match lo with | none => true | some l => decide (l < a)) && decide (a < Config.memSize)
      && decide (x ≠ resetByte a) && Memory.wfAbove (some a) m

/-- The canonical form of a memory: addresses 0..4095 strictly rising, and no entry for a cell that holds its reset value. -/
def Memory.wf (m : Memory) : Bool := Memory.wfAbove none m

/-- The lowest address of `a .. a+n-1` that exceeds 4095, if there is one (R10, R67). -/
def badAddress (a n : Nat) : Option Nat :=
  if n = 0 ∨ a + n ≤ Config.memSize then none else some (max a Config.memSize)

/-- `MemRead(a, n)`: the bytes, or the lowest out-of-range address (R10). -/
def Memory.memRead (m : Memory) (a n : Nat) : Except Nat (List Byte) :=
  match badAddress a n with
  | none => .ok (Memory.readBytes m a n)
  | some b => .error b

/-- `MemWrite(a, n, xs)` with `n` the length of `xs`: the memory after, or the lowest out-of-range address; the whole range is
checked before anything is written (R10, R68). -/
def Memory.memWrite (m : Memory) (a : Nat) (xs : List Byte) : Except Nat Memory :=
  match badAddress a xs.length with
  | none => .ok (Memory.writeBytes m a xs)
  | some b => .error b

/-! ## Registers (R20 to R22) -/

/-- `V[r]`. -/
def State.reg (s : State) (r : Reg) : Byte := s.v[r.val]

/-- `V[r] <- x`. -/
def State.setReg (s : State) (r : Reg) (x : Byte) : State := { s with v := s.v.set r.val x }

/-- The number of `VF` (R22). -/
def vfReg : Reg := 15

/-- `VF <- x` (R22, R23). -/
def State.setVF (s : State) (x : Byte) : State := s.setReg vfReg x

/-- `V[0], ..., V[x]` in order (R204). -/
def State.regsUpTo (s : State) (x : Reg) : List Byte := s.v.toList.take (x.val + 1)

/-- `v` with the bytes in entries `k`, `k + 1`, ... in order. -/
def putRegs : Vector Byte 16 → Nat → List Byte → Vector Byte 16
  | v, _, [] => v
  | v, k, b :: bs => putRegs (v.setIfInBounds k b) (k + 1) bs

/-- `V[k] <- bs[k]` for each byte of `bs`; the registers past its end keep their values (R205). -/
def State.setRegs (s : State) (bs : List Byte) : State := { s with v := putRegs s.v 0 bs }

/-- `I <- x`. -/
def State.setI (s : State) (x : Word) : State := { s with i := x }

/-- `PC <- x`. -/
def State.setPC (s : State) (x : Word) : State := { s with pc := x }

/-- `PC <- PC + 2`, what a taken skip does (R164). -/
def State.skip (s : State) : State := { s with pc := s.pc + 2#16 }

/-! ## Call stack (R27, R28) -/

/-- Push a return address; none when 16 entries are in use. -/
def State.pushed (s : State) (ret : Word) : Option State :=
  if h : s.sp.val < 16 then
    some { s with stack := s.stack.set s.sp.val ret, sp := ⟨s.sp.val + 1, Nat.succ_lt_succ h⟩ }
  else none

/-- Pop into `PC`; none when the stack is empty. The popped entry keeps its value in the array. -/
def State.popped (s : State) : Option State :=
  if h : 0 < s.sp.val then
    some { s with pc := s.stack[s.sp.val - 1]'(by omega), sp := ⟨s.sp.val - 1, by omega⟩ }
  else none

/-! ## Frame buffer (R31) -/

/-- A pixel `FB[p]`, `p = x + 64*y`. -/
abbrev Pixel := Fin 2048

/-- `FB[p]`. -/
def FrameBuffer.cell (fb : FrameBuffer) (p : Pixel) : Bool := fb[p.val / 64].getLsbD (p.val % 64)

/-- `FB[p] <- FB[p] ^ 1`. -/
def FrameBuffer.flip (fb : FrameBuffer) (p : Pixel) : FrameBuffer :=
  fb.set (p.val / 64) (fb[p.val / 64] ^^^ BitVec.twoPow 64 (p.val % 64))

/-- The frame buffer with every cell 0. -/
def FrameBuffer.clear : FrameBuffer := Vector.replicate 32 0#64

/-- Flip the listed pixels in order; the Bool is raised when a pixel was lit just before its flip (R222, R224). -/
def FrameBuffer.blit : List Pixel → FrameBuffer → Bool → FrameBuffer × Bool
  | [], fb, hit => (fb, hit)
  | p :: ps, fb, hit => FrameBuffer.blit ps (FrameBuffer.flip fb p) (hit || FrameBuffer.cell fb p)

/-! ## Keys (R33, R245) -/

/-- The lowest pressed key, if any (R245). -/
def KeyLatch.first (keys : KeyLatch) : Option Reg := (List.finRange 16).find? fun k => keys[k.val]

/-- The key number as a byte. -/
def keyCode (k : Reg) : Byte := BitVec.ofNat 8 k.val

/-! ## Taking a fault (R260, R267, R270, R271) -/

/-- The numeric code of a cause (R260). -/
def Cause.code : Cause → Nat
  | .unknownOpcode => 1
  | .memoryAccess => 2
  | .stackOverflow => 3
  | .stackUnderflow => 4
  | .keyIndex => 5

/-- The `code` field of a record (R267). -/
def FaultRecord.code (r : FaultRecord) : Nat := r.cause.code

/-- Fault entry, the one operation that takes a fault: `STATUS <- Faulted` and `FAULT <-` the record. There is no handler, no
saved status and no mode to change (R270), and nothing to return from it: only `reset()` leaves `Faulted` (R273). -/
def State.takeFault (s : State) (c : Cause) (info : Word) (pc : Word) (op : Option Word) : State :=
  { s with status := .faulted, fault := some { cause := c, info := info, faultPC := pc, faultOpcode := op } }

/-- `raise c(info)` in the execute phase, where `PC` is the fetch address plus 2 and `OPCODE` the word fetched. What the step's
first phases wrote is put back by `endStep` (R133, R271). -/
def State.raise (s : State) (c : Cause) (info : Word) : Result :=
  .next (s.takeFault c info (s.pc - 2#16) (some s.opcode))

/-! ## The phases of a step around the execute phase (R121 to R125, R130, R133) -/

/-- The timer tick (R275). -/
def State.tick (s : State) : State :=
  { s with
    dt := if 0#8 < s.dt then s.dt - 1#8 else s.dt
    st := if 0#8 < s.st then s.st - 1#8 else s.st
    pulse := if s.st = 1#8 then true else s.pulse }

/-- Fetch (R121): the big-endian word at `PC` (R64), or the lowest out-of-range address of its two bytes. -/
def State.fetch (s : State) : Except Nat Word :=
  match badAddress s.pc.toNat 2 with
  | none => .ok (wordOfBytes (s.mem.read s.pc.toNat) (s.mem.read (s.pc.toNat + 1)))
  | some a => .error a

/-- `PULSE <- 0`, with which every step begins (R133). -/
def State.noPulse (s : State) : State := { s with pulse := false }

/-- A fault of the fetch itself: no word was fetched (R121, R267, R271). -/
def State.fetchFault (s : State) (a : Nat) : State :=
  s.noPulse.takeFault .memoryAccess (BitVec.ofNat 16 a) s.pc none

/-- A fault of the decode: the word is the info (R123, R261, R271). -/
def State.decodeFault (s : State) (op : Word) : State := s.noPulse.takeFault .unknownOpcode op s.pc (some op)

/-- The state the execute phase starts from: no pulse, `OPCODE` the word fetched, `PC` advanced by 2 (R121, R122, R133). -/
def State.beginExecute (s : State) (op : Word) : State := { s with pulse := false, opcode := op, pc := s.pc + 2#16 }

/-- The end of a step that began at `s` and whose execute phase left `t` (R125, R133, R271): a fault keeps of `t` only `STATUS`
and `FAULT` and puts the rest back to `s`; a step that starts a key wait does not tick; any other step ticks. -/
def State.endStep (s t : State) : State :=
  match t.status with
  | .faulted => { s.noPulse with status := t.status, fault := t.fault }
  | .awaitingKey => t
  | .running => t.tick

/-- A step in `AwaitingKey` (R130, R246): with a key pressed, write its number to the register the pending 0xFX0A names, return
to `Running` and tick; otherwise change nothing. -/
def State.resume (s : State) : State :=
  match KeyLatch.first s.keys with
  | some k => State.tick { s.setReg (fieldX s.opcode) (keyCode k) with status := .running }
  | none => s

end Sys2Proof.Machine
end

