-- ==== Sys2Proof/Machine/Operands.lean ====
section
/-! DEFINITION. The operand forms: immediates extended to the width they are used at (spec rules R97, R98), the one
addressing mode (R206), decimal digits (R203), the pixels of a sprite (R222, R223, R227), key numbers (R240, R242). -/
namespace Sys2Proof.Machine

/-- `zext_16` of a byte (R11). -/
def zextByte (b : Byte) : Word := b.setWidth 16

/-- `zext_16` of a 12-bit immediate (R97). -/
def zextImm (n : Imm12) : Word := n.setWidth 16

/-- The effective address `EA(k) = I + k`, an unbounded integer sum (R206). -/
def State.ea (s : State) (k : Nat) : Nat := s.i.toNat + k

/-- The three decimal digits of a byte, hundreds first (R203). -/
def bcdDigits (x : Byte) : List Byte :=
  [BitVec.ofNat 8 (x.toNat / 100), BitVec.ofNat 8 (x.toNat / 10 % 10), BitVec.ofNat 8 (x.toNat % 10)]

/-- The key a register's value selects; none above 15 (R240 to R242). -/
def keyOf (x : Byte) : Option Reg := if h : x.toNat < 16 then some ⟨x.toNat, h⟩ else none

/-- The pixel at column `x mod 64`, row `y mod 32` (R31, R223). -/
def pixelAt (x y : Nat) : Pixel := ⟨x % 64 + y % 32 * 64, by omega⟩

/-- The pixels a sprite byte covers with a 1 bit when its column 0 is at `x` in row `y`, left to right; bit 7 is column 0
(R222, R227). -/
def rowPixels (x y : Nat) (b : Byte) : List Pixel :=
  (List.range 8).filterMap fun c => if b.getLsbD (7 - c) then some (pixelAt (x + c) y) else none

/-- The pixels a sprite covers with 1 bits, its rows from `y` downward, in the order R222 visits them. -/
def spritePixels (x : Nat) : Nat → List Byte → List Pixel
  | _, [] => []
  | y, b :: rows => rowPixels x y b ++ spritePixels x (y + 1) rows

end Sys2Proof.Machine
end

