-- ==== Sys2Proof/Machine/ControlFlow.lean ====
section
/-! DEFINITION. Control flow (spec/41_control_flow.md): RET, SYS, JP, CALL, JP V0. On entry `PC` is the address after the
instruction (R122). -/
namespace Sys2Proof.Machine

/-- `RET` (R140): pop `PC`; `StackUnderflow` when the stack is empty. -/
def execRet (s : State) : Result :=
  match s.popped with
  | some t => .next t
  | none => s.raise .stackUnderflow 0#16

/-- `SYS nnn` (R142): no operation, for every `nnn`. -/
def execSys (_nnn : Imm12) (s : State) : Result := .next s

/-- `JP nnn` (R144). -/
def execJp (nnn : Imm12) (s : State) : Result := .next (s.setPC (zextImm nnn))

/-- `CALL nnn` (R146): push the advanced `PC`, then jump; `StackOverflow` when 16 entries are in use. -/
def execCall (nnn : Imm12) (s : State) : Result :=
  match s.pushed s.pc with
  | some t => .next (t.setPC (zextImm nnn))
  | none => s.raise .stackOverflow 0#16

/-- `JP V0, nnn` (R148): the sum is not reduced. -/
def execJpV0 (nnn : Imm12) (s : State) : Result := .next (s.setPC (zextByte (s.reg 0) + zextImm nnn))

end Sys2Proof.Machine
end

