-- ==== Sys2Proof/Machine/Flags.lean ====
section
/-! DEFINITION. What the six flag-writing instructions put into `VF` (spec rules R22, R23, R181): a whole byte, 0 or 1,
computed from operand values read before the instruction writes anything (R127). -/
namespace Sys2Proof.Machine

/-- A flag as the byte `VF` receives (R22). -/
def flagByte (b : Bool) : Byte := if b then 1#8 else 0#8

/-- Carry of 0x8XY4: 1 iff the integer sum exceeds 255 (R177). -/
def carryFlag (vx vy : Byte) : Byte := flagByte (decide (vx.toNat + vy.toNat > 255))

/-- No borrow of `a - b`: 1 iff `a >= b` (R178, R181, R183). -/
def noBorrowFlag (a b : Byte) : Byte := flagByte (decide (a.toNat ≥ b.toNat))

/-- The bit 0x8XY6 shifts out: bit 0 before the shift (R179). -/
def shrFlag (vx : Byte) : Byte := vx &&& 1#8

/-- The bit 0x8XYE shifts out: bit 7 before the shift (R184). -/
def shlFlag (vx : Byte) : Byte := (vx >>> 7) &&& 1#8

/-- Collision of 0xDXYN: 1 iff a lit pixel was turned off (R224). -/
def collisionFlag (hit : Bool) : Byte := flagByte hit

end Sys2Proof.Machine
end

