-- ==== Sys2Proof/Machine/Display.lean ====
section
/-! DEFINITION. The display instructions (spec/45_display.md). -/
namespace Sys2Proof.Machine

/-- `CLS` (R220): every cell 0; the draw flag is not touched. -/
def execCls (s : State) : Result := .next { s with fb := FrameBuffer.clear }

/-- The pixels a draw at (`Vx`, `Vy`) of the sprite bytes `rows` flips (R222). -/
def State.drawPixels (s : State) (x y : Reg) (rows : List Byte) : List Pixel :=
  spritePixels (s.reg x).toNat (s.reg y).toNat rows

/-- `DRW Vx, Vy, n` (R222 to R228): the sprite bytes are read and checked first (R226), then the pixels are flipped, `VF` is the
collision flag (R224) and the draw flag is set (R225). -/
def execDrw (x y : Reg) (n : Nibble) (s : State) : Result :=
  match s.mem.memRead (s.ea 0) n.toNat with
  | .error a => s.raise .memoryAccess (BitVec.ofNat 16 a)
  | .ok rows =>
    let r := FrameBuffer.blit (s.drawPixels x y rows) s.fb false
    .next { s.setVF (collisionFlag r.2) with fb := r.1, draw := true }

end Sys2Proof.Machine
end

