-- ==== Sys2Proof/Machine/IndexMemory.lean ====
section
/-! DEFINITION. The index register and memory transfers (spec/44_index_memory.md). The whole range is checked before
anything changes (R68); `I` is not advanced. -/
namespace Sys2Proof.Machine

/-- `MemWrite` at `I` as an instruction's effect: `MemoryAccessError` with the lowest out-of-range address, nothing stored
(R10, R68, R262). -/
def storeAtI (s : State) (xs : List Byte) : Result :=
  match s.mem.memWrite (s.ea 0) xs with
  | .ok m => .next { s with mem := m }
  | .error a => s.raise .memoryAccess (BitVec.ofNat 16 a)

/-- `LD I, nnn` (R200). -/
def execLdI (nnn : Imm12) (s : State) : Result := .next (s.setI (zextImm nnn))

/-- `ADD I, Vx` (R201): modulo 65536, no flag. -/
def execAddI (x : Reg) (s : State) : Result := .next (s.setI (s.i + zextByte (s.reg x)))

/-- `LD F, Vx` (R202): the whole byte times 5. -/
def execLdF (x : Reg) (s : State) : Result := .next (s.setI (zextByte (s.reg x) * 5#16))

/-- `LD B, Vx` (R203): three decimal digits at `I`. -/
def execLdB (x : Reg) (s : State) : Result := storeAtI s (bcdDigits (s.reg x))

/-- `LD [I], Vx` (R204): `V0..Vx` to memory at `I`. -/
def execStoreRegs (x : Reg) (s : State) : Result := storeAtI s (s.regsUpTo x)

/-- `LD Vx, [I]` (R205): `V0..Vx` from memory at `I`. -/
def execLoadRegs (x : Reg) (s : State) : Result :=
  match s.mem.memRead (s.ea 0) (x.val + 1) with
  | .ok bs => .next (s.setRegs bs)
  | .error a => s.raise .memoryAccess (BitVec.ofNat 16 a)

end Sys2Proof.Machine
end

