-- ==== Sys2Proof/Machine/Skips.lean ====
section
/-! DEFINITION. The conditional skips on registers (spec/42_skips.md, law R164): a taken skip adds 2 to the advanced `PC`
and looks at nothing. -/
namespace Sys2Proof.Machine

/-- The common shape: skip when the condition holds (R164). -/
def skipIf (c : Bool) (s : State) : Result := .next (if c then s.skip else s)

/-- `SE Vx, nn` (R160). -/
def execSeImm (x : Reg) (nn : Byte) (s : State) : Result := skipIf (s.reg x == nn) s

/-- `SNE Vx, nn` (R161). -/
def execSneImm (x : Reg) (nn : Byte) (s : State) : Result := skipIf (s.reg x != nn) s

/-- `SE Vx, Vy` (R162). -/
def execSeReg (x y : Reg) (s : State) : Result := skipIf (s.reg x == s.reg y) s

/-- `SNE Vx, Vy` (R163). -/
def execSneReg (x y : Reg) (s : State) : Result := skipIf (s.reg x != s.reg y) s

end Sys2Proof.Machine
end

