-- ==== Sys2Proof/Machine/KeypadTimers.lean ====
section
/-! DEFINITION. Keypad and timer instructions (spec/46_keypad_timers.md). -/
namespace Sys2Proof.Machine

/-- `SKP Vx` (R240): skip if the key `Vx` selects is pressed; `KeyIndexError` above 15 (R242). -/
def execSkp (x : Reg) (s : State) : Result :=
  match keyOf (s.reg x) with
  | some k => skipIf s.keys[k.val] s
  | none => s.raise .keyIndex (zextByte (s.reg x))

/-- `SKNP Vx` (R241): skip if the key `Vx` selects is released; `KeyIndexError` above 15 (R242). -/
def execSknp (x : Reg) (s : State) : Result :=
  match keyOf (s.reg x) with
  | some k => skipIf (!s.keys[k.val]) s
  | none => s.raise .keyIndex (zextByte (s.reg x))

/-- `LD Vx, DT` (R250). -/
def execLdVxDT (x : Reg) (s : State) : Result := .next (s.setReg x s.dt)

/-- `LD Vx, K` (R244 to R246): the lowest pressed key at once, or start the wait. -/
def execLdVxK (x : Reg) (s : State) : Result :=
  match KeyLatch.first s.keys with
  | some k => .next (s.setReg x (keyCode k))
  | none => .next { s with status := .awaitingKey }

/-- `LD DT, Vx` (R251). -/
def execLdDTVx (x : Reg) (s : State) : Result := .next { s with dt := s.reg x }

/-- `LD ST, Vx` (R252). -/
def execLdSTVx (x : Reg) (s : State) : Result := .next { s with st := s.reg x }

end Sys2Proof.Machine
end

