-- ==== Sys2Proof/Machine/LoadAlu.lean ====
section
/-! DEFINITION. Register load, arithmetic, logic, shift and random (spec/43_load_alu.md). Every operand is read from the
state on entry (R127); where flag and result are both written the flag is written first, so with `X = 15` the result remains
(R128). -/
namespace Sys2Proof.Machine

/-- Write the flag to `VF`, then the result to `Vx` (R128). -/
def flagThenResult (s : State) (flag : Byte) (x : Reg) (result : Byte) : Result := .next ((s.setVF flag).setReg x result)

/-- `LD Vx, nn` (R170). -/
def execLdImm (x : Reg) (nn : Byte) (s : State) : Result := .next (s.setReg x nn)

/-- `ADD Vx, nn` (R171): modulo 256, `VF` not a flag here. -/
def execAddImm (x : Reg) (nn : Byte) (s : State) : Result := .next (s.setReg x (s.reg x + nn))

/-- `LD Vx, Vy` (R172). -/
def execLdReg (x y : Reg) (s : State) : Result := .next (s.setReg x (s.reg y))

/-- `OR Vx, Vy` (R173). -/
def execOr (x y : Reg) (s : State) : Result := .next (s.setReg x (s.reg x ||| s.reg y))

/-- `AND Vx, Vy` (R174). -/
def execAnd (x y : Reg) (s : State) : Result := .next (s.setReg x (s.reg x &&& s.reg y))

/-- `XOR Vx, Vy` (R175). -/
def execXor (x y : Reg) (s : State) : Result := .next (s.setReg x (s.reg x ^^^ s.reg y))

/-- `ADD Vx, Vy` (R177): `VF` = carry out. -/
def execAddReg (x y : Reg) (s : State) : Result :=
  flagThenResult s (carryFlag (s.reg x) (s.reg y)) x (s.reg x + s.reg y)

/-- `SUB Vx, Vy` (R178): `VF` = no borrow. -/
def execSub (x y : Reg) (s : State) : Result :=
  flagThenResult s (noBorrowFlag (s.reg x) (s.reg y)) x (s.reg x - s.reg y)

/-- `SHR Vx` (R179): `VF` = the bit shifted out; `Vy` plays no part (R104). -/
def execShr (x _y : Reg) (s : State) : Result := flagThenResult s (shrFlag (s.reg x)) x (s.reg x >>> 1)

/-- `SUBN Vx, Vy` (R183): `Vy - Vx`, `VF` = no borrow. -/
def execSubn (x y : Reg) (s : State) : Result :=
  flagThenResult s (noBorrowFlag (s.reg y) (s.reg x)) x (s.reg y - s.reg x)

/-- `SHL Vx` (R184): `VF` = the bit shifted out; `Vy` plays no part (R104). -/
def execShl (x _y : Reg) (s : State) : Result := flagThenResult s (shlFlag (s.reg x)) x (s.reg x <<< 1)

/-- `RND Vx, nn` (R185): the next free byte, masked; the draw is used up (assumption log 3). -/
def execRnd (x : Reg) (nn : Byte) (s : State) : Result :=
  .next { s.setReg x (Config.randByte s.draws &&& nn) with draws := s.draws + 1 }

end Sys2Proof.Machine
end

