-- ==== Sys2Proof/Machine/Step.lean ====
section
/-! DEFINITION. One call of `step()` (spec rules R120 to R133), and placing a word where the next step fetches it. -/
namespace Sys2Proof.Machine

/-- `step()` (R133): dead in `Faulted` (R131), the resume check in `AwaitingKey` (R130), the full cycle in `Running`. -/
def step (s : State) : Host.Outcome State Fault Refusal :=
  match s.status with
  | .faulted => .next s.noPulse
  | .awaitingKey => .next s.noPulse.resume
  | .running =>
    match s.fetch with
    | .error a => .next (s.fetchFault a)
    | .ok op =>
      match decodeWord op with
      | .error _ => .next (s.decodeFault op)
      | .ok i =>
        match exec i (s.beginExecute op) with
        | .next t => .next (s.endStep t)
        | .fault f => .fault f
        | .refused r => .refused r

/-- `s` with the word whose table bits are `w` stored at `PC`, high byte first (R64), and in `Running` status, the only one in
which a step fetches (R120). Where `PC` exceeds 4094 there is no room for a word and memory stays as it was (assumption
log 21). -/
def State.withFetchWord (s : State) (nbits w : Nat) : State :=
  match s.mem.memWrite s.pc.toNat (bytesOfWord (tableWord nbits w)) with
  | .ok m => { s with mem := m, status := .running }
  | .error _ => { s with status := .running }

end Sys2Proof.Machine
end

