-- ==== Sys2Proof/Machine/HostOps.lean ====
section
/-! DEFINITION. What the host can do to the machine, between steps (spec rules R300 to R310, table R308). Reading `FB`,
`DRAW`, `PULSE`, `STATUS` and `FAULT` has no effect and is reading the state's fields. -/
namespace Sys2Proof.Machine

/-- `reset()` from any state (R300, R302). The count of random draws, which is no state of the hardware, is kept: a run after a
reset draws fresh bytes (assumption log 8). -/
def State.hostReset (s : State) : State := { State.reset with draws := s.draws }

/-- Why `load` rejects an image; not a fault of the machine (R266, R306). -/
inductive LoadError where
  /-- `RomTooLargeError`, with the image's length. -/
  | romTooLarge (len : Nat)
  deriving DecidableEq, Repr

/-- `load(rom)` (R305, R306): copy the image to memory from 0x200 upward, or reject it whole. -/
def State.load (s : State) (rom : List Byte) : Except LoadError State :=
  if rom.length ≤ Config.romMax then .ok { s with mem := s.mem.writeBytes Config.progBase rom }
  else .error (.romTooLarge rom.length)

/-- `set_keys` (R308, R310): the whole latch is overwritten. -/
def State.setKeys (s : State) (k : KeyLatch) : State := { s with keys := k }

/-- `clear_draw()` (R309). -/
def State.clearDraw (s : State) : State := { s with draw := false }

/-- The host operations that change state (R308). -/
inductive HostOp where
  | reset
  | load (rom : List Byte)
  | setKeys (k : KeyLatch)
  | step
  | clearDraw
  deriving DecidableEq, Repr

/-- One host operation. A rejected `load` leaves the machine as it was (R306); the error it reports is `State.load`'s. -/
def hostAct (op : HostOp) (s : State) : Result :=
  match op with
  | .reset => .next s.hostReset
  | .load rom => match s.load rom with
    | .ok t => .next t
    | .error _ => .next s
  | .setKeys k => .next (s.setKeys k)
  | .step => step s
  | .clearDraw => .next s.clearDraw

end Sys2Proof.Machine
end

