-- ==== Sys2Proof/Safety.lean ====
section
/-! DEFINITION. The vocabulary of the claims: which pieces of state two states agree on (frames), what raising a fault does
(spec rule R271), which faults each instruction can raise (R260), what each instruction may write (R40), where `PC` goes (R25),
which pixels a draw covers (R222), and the machine's invariant. -/
namespace Sys2Proof.Machine

/-! ## Frames -/

/-- The pieces of state of R40, one name each, and the model's own count of random draws. -/
inductive Part where
  | v | i | pc | sp | stack | dt | st | fb | draw | keys | opcode | status | fault | mem | pulse | draws
  deriving DecidableEq, Repr

/-- The two states agree on that piece: every register, every stack entry, every pixel, every key, every byte of memory. -/
def Part.same : Part → State → State → Prop
  | .v, s, t => ∀ r : Reg, t.reg r = s.reg r
  | .i, s, t => t.i = s.i
  | .pc, s, t => t.pc = s.pc
  | .sp, s, t => t.sp = s.sp
  | .stack, s, t => ∀ k : Fin 16, t.stack[k.val] = s.stack[k.val]
  | .dt, s, t => t.dt = s.dt
  | .st, s, t => t.st = s.st
  | .fb, s, t => ∀ p : Pixel, FrameBuffer.cell t.fb p = FrameBuffer.cell s.fb p
  | .draw, s, t => t.draw = s.draw
  | .keys, s, t => ∀ k : Reg, t.keys[k.val] = s.keys[k.val]
  | .opcode, s, t => t.opcode = s.opcode
  | .status, s, t => t.status = s.status
  | .fault, s, t => t.fault = s.fault
  | .mem, s, t => ∀ a : Nat, t.mem.read a = s.mem.read a
  | .pulse, s, t => t.pulse = s.pulse
  | .draws, s, t => t.draws = s.draws

/-- From `s` to `t` nothing changed but the listed pieces. -/
def Frame (changed : List Part) (s t : State) : Prop := ∀ p : Part, p ∉ changed → p.same s t

/-- From `s` to `t` no register changed but the listed ones. -/
def RegsKept (changed : List Reg) (s t : State) : Prop := ∀ r : Reg, r ∉ changed → t.reg r = s.reg r

/-- From `s` to `t` every byte of memory outside the `n` bytes at `a` reads as before. -/
def BytesKept (a n : Nat) (s t : State) : Prop := ∀ b : Nat, (b < a ∨ a + n ≤ b) → t.mem.read b = s.mem.read b

/-! ## Faults -/

/-- `t` is `s`, a state of the execute phase, after raising `c` with `info` (R267, R271): the record names the address the
instruction was fetched from, which is `PC - 2` here, and the word fetched; only `STATUS` and `FAULT` differ. -/
def Raised (s t : State) (c : Cause) (info : Word) : Prop :=
  t.status = .faulted ∧ t.fault = some { cause := c, info := info, faultPC := s.pc - 2#16, faultOpcode := some s.opcode } ∧
    Frame [.status, .fault] s t

/-! ## Illegal words -/

/-- The five classes of illegal words, by the word's nibbles and low byte (R102). -/
def IllegalWord (op : Word) : Prop :=
  let n := op.toNat
  (n / 4096 = 0x5 ∧ n % 16 ≠ 0) ∨
  (n / 4096 = 0x8 ∧ n % 16 ∈ [0x8, 0x9, 0xA, 0xB, 0xC, 0xD, 0xF]) ∨
  (n / 4096 = 0x9 ∧ n % 16 ≠ 0) ∨
  (n / 4096 = 0xE ∧ n % 256 ∉ [0x9E, 0xA1]) ∨
  (n / 4096 = 0xF ∧ n % 256 ∉ [0x07, 0x0A, 0x15, 0x18, 0x1E, 0x29, 0x33, 0x55, 0x65])

/-! ## Sprites -/

/-- The pixel `p` is under a 1 bit of the sprite `rows` drawn at (`x`, `y`): some row `r` and column `c` have the bit
`rows[r][7 - c]` set and the target cell `((x + c) mod 64, (y + r) mod 32)` (R222, R223, R227). -/
def Covers (x y : Nat) (rows : List Byte) (p : Pixel) : Prop :=
  ∃ r c : Nat, c < 8 ∧ (∃ b, rows[r]? = some b ∧ b.getLsbD (7 - c) = true) ∧
    p.val = (x + c) % 64 + (y + r) % 32 * 64

/-- The sprite bytes of a draw of height `n`: `MEM[I .. I+n-1]` (R222, R226). -/
def State.spriteRows (s : State) (n : Nat) : List Byte := (List.range n).map fun r => s.mem.read (s.i.toNat + r)

/-! ## The invariant -/

/-- `FAULT` holds a record exactly while `STATUS` is `Faulted`, and its address is where `PC` still stands (R38, R39, R271). -/
def State.faultConsistent (s : State) : Prop :=
  match s.fault with
  | none => s.status ≠ .faulted
  | some r => s.status = .faulted ∧ r.faultPC = s.pc

/-- The invariant of the machine: memory is in canonical form; `PC` is at most 0x10FE (R25); every stack entry is at most 4096
(R140); while a key is awaited `OPCODE` is the pending 0xFX0A (R246); `STATUS` and `FAULT` agree. -/
structure State.Inv (s : State) : Prop where
  memWf : s.mem.wf = true
  pcBound : s.pc.toNat ≤ 0x10FE
  stackBound : ∀ k : Fin 16, (s.stack[k.val]).toNat ≤ 4096
  awaitingOpcode : s.status = .awaitingKey → s.opcode &&& 0xF0FF#16 = 0xF00A#16
  faultRecord : s.faultConsistent

end Sys2Proof.Machine

namespace Sys2Proof

open Sys2Proof.Machine

/-! ## Which faults an instruction raises -/

/-- The memory range an instruction accesses as data, as its first address and its length (R67). -/
def Instr.dataRange (i : Instr) (s : State) : Option (Nat × Nat) :=
  match i with
  | .drw _ _ n => some (s.i.toNat, n.toNat)
  | .ldB _ => some (s.i.toNat, 3)
  | .storeRegs x | .loadRegs x => some (s.i.toNat, x.val + 1)
  | _ => none

/-- The cause and info of the fault the instruction raises in the execute phase, if it raises one (R260, R262 to R265). -/
def Instr.faultOf (i : Instr) (s : State) : Option (Cause × Word) :=
  match i with
  | .ret => if s.sp.val = 0 then some (.stackUnderflow, 0#16) else none
  | .call _ => if s.sp.val = 16 then some (.stackOverflow, 0#16) else none
  | .skp x | .sknp x => if (s.reg x).toNat > 15 then some (.keyIndex, (s.reg x).setWidth 16) else none
  | _ =>
    match Instr.dataRange i s with
    | some (a, n) => if 1 ≤ n ∧ a + n - 1 > 4095 then some (.memoryAccess, BitVec.ofNat 16 (max a 4096)) else none
    | none => none

/-! ## What each instruction may write -/

/-- The pieces of state the "written by" column of R40 lets the execute phase of the instruction write, faults apart. `draws` is
the model's own. -/
def Instr.writes : Instr → List Part
  | .cls => [.fb]
  | .ret => [.pc, .sp]
  | .sys _ => []
  | .jp _ | .jpV0 _ => [.pc]
  | .call _ => [.pc, .sp, .stack]
  | .seImm _ _ | .sneImm _ _ | .seReg _ _ | .sneReg _ _ | .skp _ | .sknp _ => [.pc]
  | .ldImm _ _ | .addImm _ _ | .ldReg _ _ | .orReg _ _ | .andReg _ _ | .xorReg _ _ | .addReg _ _ | .sub _ _ | .shr _ _
  | .subn _ _ | .shl _ _ | .ldVxDT _ | .loadRegs _ => [.v]
  | .rnd _ _ => [.v, .draws]
  | .ldI _ | .addI _ | .ldF _ => [.i]
  | .drw _ _ _ => [.v, .fb, .draw]
  | .ldVxK _ => [.v, .status]
  | .ldDTVx _ => [.dt]
  | .ldSTVx _ => [.st]
  | .ldB _ | .storeRegs _ => [.mem]

/-- Where the instruction fetched at `a` leaves `PC` when the step does not fault (R25), with `s` the state the step began in. -/
def Instr.nextPC (i : Instr) (s : State) (a : Nat) : Nat :=
  match i with
  | .jp nnn | .call nnn => nnn.toNat
  | .jpV0 nnn => (s.reg 0).toNat + nnn.toNat
  | .ret => if h : 0 < s.sp.val then (s.stack[s.sp.val - 1]'(by omega)).toNat else a
  | .seImm x nn => if s.reg x = nn then a + 4 else a + 2
  | .sneImm x nn => if s.reg x ≠ nn then a + 4 else a + 2
  | .seReg x y => if s.reg x = s.reg y then a + 4 else a + 2
  | .sneReg x y => if s.reg x ≠ s.reg y then a + 4 else a + 2
  | .skp x => if s.keys.toList[(s.reg x).toNat]? = some true then a + 4 else a + 2
  | .sknp x => if s.keys.toList[(s.reg x).toNat]? = some false then a + 4 else a + 2
  | _ => a + 2

end Sys2Proof
end

