-- ==== Sys2Proof/Certificates/Slice0/Obligations.lean ====
section
/-! DEFINITION. The statements for the provers. `exec i s` is the execute phase: in `s` the program counter is already
advanced and `OPCODE` is the word fetched (spec rules R122, R124); what the step adds around it is said by
`StepRunsTheDecodedInstruction`. -/
open Sys2Proof Sys2Proof.Machine

/-! ## Encoding -/

/-- Every well-formed instruction is what its own word decodes to, whatever its operands (spec/30_encoding.md, R91 to R101). -/
def Obligations.DecodeInvertsEncode : Prop :=
  ∀ i : Instr, i.wf = true → decodeWord (encode i) = .ok i

/-- Every legal word decodes to a well-formed instruction whose word it is: no bit of a word is dropped, ignored fields
included (spec/30_encoding.md, R91 to R104). -/
def Obligations.EncodeInvertsDecode : Prop :=
  ∀ (op : Word) (i : Instr), decodeWord op = .ok i → i.wf = true ∧ encode i = op

/-- The decoder picks the row of the opcode map the word matches: what it answers has the word's bits under its mask, and a
word that matches a row, `SYS` not being one for the two exact words, decodes to that row (R100). -/
def Obligations.DecodeFindsTheMatchingRow : Prop :=
  ∀ op : Word,
    (∀ i : Instr, decodeWord op = .ok i → op &&& i.mask = i.fixedBits) ∧
    (∀ j : Instr, op &&& j.mask = j.fixedBits → (j.fixedBits = 0x0000#16 → op ≠ 0x00E0#16 ∧ op ≠ 0x00EE#16) →
      ∃ i : Instr, decodeWord op = .ok i ∧ i.mask = j.mask ∧ i.fixedBits = j.fixedBits)

/-- The words of the five classes, and no others, are refused by the decoder, and a step that fetches one raises
`UnknownOpcodeError` with the word as info and as fault opcode (R102, R261). -/
def Obligations.IllegalWordsRaiseUnknownOpcode : Prop :=
  ∀ op : Word,
    (decodeWord op = .error (.unknownOpcode op) ↔ IllegalWord op) ∧ ((∃ i, decodeWord op = .ok i) ↔ ¬ IllegalWord op) ∧
    (IllegalWord op → ∀ s : State, s.status = .running → s.fetch = .ok op →
      ∃ t r, step s = .next t ∧ t.status = .faulted ∧ t.fault = some r ∧
        r.cause = .unknownOpcode ∧ r.info = op ∧ r.faultOpcode = some op)

/-- A few words written out from the encodings of R100 decode as the table says. -/
def Obligations.SampleWordsDecode : Prop :=
  decodeWord 0x00E0#16 = .ok .cls ∧ decodeWord 0x00E1#16 = .ok (.sys 0x0E1#12) ∧ decodeWord 0x2ABC#16 = .ok (.call 0xABC#12) ∧
  decodeWord 0x83A6#16 = .ok (.shr 3 10) ∧ decodeWord 0xD12F#16 = .ok (.drw 1 2 0xF#4) ∧
  decodeWord 0xF265#16 = .ok (.loadRegs 2) ∧ decodeWord 0xFFFF#16 = .error (.unknownOpcode 0xFFFF#16)

/-! ## The step -/

/-- When the bytes at `PC` decode to `i`, a step is: pulse cleared, `OPCODE` written, `PC` advanced by 2, `exec i`, and then by
the status `exec` left: a tick, nothing, or everything but `STATUS` and `FAULT` put back (R121 to R125, R133). -/
def Obligations.StepRunsTheDecodedInstruction : Prop :=
  ∀ (s : State) (i : Instr), s.status = .running → s.pc.toNat ≤ 4094 →
    decode [s.mem.read s.pc.toNat, s.mem.read (s.pc.toNat + 1)] = .ok (i, []) →
    step s =
      match exec i { s with
          pulse := false, pc := s.pc + 2#16
          opcode := wordOfBytes (s.mem.read s.pc.toNat) (s.mem.read (s.pc.toNat + 1)) } with
      | .next t =>
        .next (match t.status with
          | .running => t.tick
          | .awaitingKey => t
          | .faulted => { s with pulse := false, status := .faulted, fault := t.fault })
      | .fault f => .fault f
      | .refused r => .refused r

/-- The fetch: the opcode is the big-endian word at `PC`, held in `OPCODE` after a step that does not fault; above 4094 the
step raises `MemoryAccessError` with the lowest out-of-range address (R121, R64). -/
def Obligations.FetchIsBigEndianAndBounded : Prop :=
  ∀ s : State, s.status = .running →
    (s.pc.toNat ≤ 4094 → ∃ op : Word, s.fetch = .ok op ∧
      op.toNat = (s.mem.read s.pc.toNat).toNat * 256 + (s.mem.read (s.pc.toNat + 1)).toNat ∧
      ∀ t, step s = .next t → t.status ≠ .faulted → t.opcode = op) ∧
    (4094 < s.pc.toNat → ∃ t r, step s = .next t ∧ t.status = .faulted ∧ t.fault = some r ∧
      r.cause = .memoryAccess ∧ r.info.toNat = max s.pc.toNat 4096)

/-- Where each instruction leaves `PC` when its step does not fault: the jump's target, the popped entry, two words on for a
taken skip, else the next word (spec/10_state.md, the rule on how each instruction leaves PC, which rests on decision D5). -/
def Obligations.StepLeavesPcWhereTheInstructionSays : Prop :=
  ∀ (s t : State) (op : Word) (i : Instr), s.status = .running → s.fetch = .ok op → decodeWord op = .ok i →
    step s = .next t → t.status ≠ .faulted → t.pc.toNat = i.nextPC s s.pc.toNat

/-- A step that faults changes nothing but `STATUS` and `FAULT`, and makes no pulse; the record's address is where `PC` still
stands and its opcode is the word fetched, none only for a fault of the fetch. The spec's decision D7 (assumption log 5). -/
def Obligations.FaultsArePrecise : Prop :=
  ∀ s t : State, s.status ≠ .faulted → step s = .next t → t.status = .faulted →
    Frame [.status, .fault, .pulse] s t ∧ t.pulse = false ∧
    ∃ r, t.fault = some r ∧ r.faultPC = s.pc ∧
      ((4094 < s.pc.toNat ∧ r.faultOpcode = none ∧ r.cause = .memoryAccess) ∨
       (∃ op, s.fetch = .ok op ∧ r.faultOpcode = some op))

/-- In `Faulted`, any number of steps leaves the machine there with nothing changed and no pulse. The spec's decision D8
(assumption log 5). -/
def Obligations.FaultedIsTerminal : Prop :=
  ∀ (n : Nat) (s : State), s.status = .faulted →
    ∃ t, core.run (n + 1) s = .next t ∧ Frame [.pulse] s t ∧ t.pulse = false

/-- A step in `AwaitingKey` fetches nothing: with a key pressed it writes the lowest pressed key's number to the register
`OPCODE` names, returns to `Running` and ticks; with none pressed any number of steps changes nothing. The spec's decision D12
(assumption logs 10 and 11). -/
def Obligations.AwaitingKeyStep : Prop :=
  ∀ s : State, s.status = .awaitingKey →
    (∀ k : Reg, s.keys[k.val] = true → (∀ j : Reg, j < k → s.keys[j.val] = false) →
      ∃ t, step s = .next t ∧ t.status = .running ∧ (t.reg (fieldX s.opcode)).toNat = k.val ∧
        RegsKept [fieldX s.opcode] s t ∧ t.dt.toNat = s.dt.toNat - 1 ∧ t.st.toNat = s.st.toNat - 1 ∧
        (t.pulse = true ↔ s.st.toNat = 1) ∧ Frame [.v, .status, .dt, .st, .pulse] s t) ∧
    ((∀ k : Reg, s.keys[k.val] = false) → ∀ n : Nat,
      ∃ t, core.run (n + 1) s = .next t ∧ t.pulse = false ∧ Frame [.pulse] s t)

/-- A step always answers a next state, and is exactly one of: completed (one instruction executed, or a key wait ended, and
the timers ticked; `Running` after), waiting (`AwaitingKey` after, no key pressed, no tick), faulted (`STATUS` and `FAULT`
written, nothing else), dead (already `Faulted`; nothing) (R126). -/
def Obligations.EveryStepHasOneOfFourOutcomes : Prop :=
  ∀ s : State, ∃ t, step s = .next t ∧
    ((s.status ≠ .faulted ∧ t.status = .running ∧ ∃ u : State, t = u.tick ∧ u.pulse = false ∧
        ((s.status = .running ∧ ∃ op i, s.fetch = .ok op ∧ decodeWord op = .ok i ∧ exec i (s.beginExecute op) = .next u) ∨
         (s.status = .awaitingKey ∧ Frame [.v, .status, .pulse] s u))) ∨
     (s.status ≠ .faulted ∧ t.status = .awaitingKey ∧ t.dt = s.dt ∧ t.st = s.st ∧ t.pulse = false ∧
        (∀ k : Reg, s.keys[k.val] = false) ∧
        (s.status = .awaitingKey ∨ ∃ op x, s.fetch = .ok op ∧ decodeWord op = .ok (.ldVxK x))) ∨
     (s.status ≠ .faulted ∧ t.status = .faulted ∧ t.fault.isSome = true ∧ t.pulse = false ∧
        Frame [.status, .fault, .pulse] s t) ∨
     (s.status = .faulted ∧ t.pulse = false ∧ Frame [.pulse] s t))

/-! ## Faults and frames of every instruction -/

/-- Every instruction answers a next state from every state. It raises a fault exactly where the table of causes says, with
that cause and info and nothing else changed; otherwise it leaves `FAULT` alone and starts no fault (spec/60_exceptions.md
section 1; the info values and the key cause are decisions D6, D9, D11; the record is decision D7, assumption log 23; that `exec`
alone leaves `PC` and `OPCODE` advanced is the model's choice, log 22). -/
def Obligations.ExecRaisesExactlyTheTabledFaults : Prop :=
  ∀ (i : Instr) (s : State), ∃ t, exec i s = .next t ∧
    match i.faultOf s with
    | some f => Raised s t f.1 f.2
    | none => t.fault = s.fault ∧ (t.status = s.status ∨ (t.status = .awaitingKey ∧ ∃ x, i = .ldVxK x))

/-- An instruction that does not fault changes only the pieces of state the state table lets it write (spec/10_state.md
section 11; that silence means untouched is decision D4). -/
def Obligations.ExecWritesOnlyItsState : Prop :=
  ∀ (i : Instr) (s t : State), i.faultOf s = none → exec i s = .next t → Frame i.writes s t

/-- A step that executes an instruction and does not fault changes only what the instruction writes, `PC`, `OPCODE`, the timers
and the pulse: memory, for one, changes only by LD B and LD [I], the key latch never (spec/10_state.md section 11; decision D4). -/
def Obligations.StepWritesOnlyItsState : Prop :=
  ∀ (s t : State) (op : Word) (i : Instr), s.status = .running → s.fetch = .ok op → decodeWord op = .ok i →
    step s = .next t → t.status ≠ .faulted → Frame (i.writes ++ [.pc, .opcode, .dt, .st, .pulse]) s t

/-! ## The invariant -/

/-- Every step keeps the invariant: memory canonical, `PC` at most 0x10FE, stack entries at most 4096, the pending 0xFX0A in
`OPCODE` while a key is awaited, `STATUS` and `FAULT` in agreement. -/
def Obligations.StepKeepsInvariant : Prop :=
  ∀ s t : State, s.Inv → step s = .next t → t.Inv

/-- The invariant holds after reset. -/
def Obligations.ResetSatisfiesInvariant : Prop := State.reset.Inv

/-- Every operation of the host other than a step keeps the invariant, a rejected load included. -/
def Obligations.HostOperationsKeepInvariant : Prop :=
  ∀ (h : HostOp) (s t : State), h ≠ .step → s.Inv → hostAct h s = .next t → t.Inv

/-! ## Timers -/

/-- A step that completes an instruction ends with one tick of what the instruction left: each timer one lower or 0, a pulse
exactly when the sound timer was 1, nothing else changed (R275). -/
def Obligations.CompletedStepsTickTheTimersOnce : Prop :=
  ∀ (s u : State) (op : Word) (i : Instr), s.status = .running → s.fetch = .ok op → decodeWord op = .ok i →
    exec i (s.beginExecute op) = .next u → u.status = .running →
    ∃ t, step s = .next t ∧ t.dt.toNat = u.dt.toNat - 1 ∧ t.st.toNat = u.st.toNat - 1 ∧
      (t.pulse = true ↔ u.st.toNat = 1) ∧ Frame [.dt, .st, .pulse] u t

/-- A step after which `STATUS` is not `Running` has not ticked: both timers hold and there is no pulse (spec/60_exceptions.md
section 7; decisions D7, D12, assumption log 11). -/
def Obligations.NoTickWithoutCompletion : Prop :=
  ∀ s t : State, step s = .next t → t.status ≠ .running → t.dt = s.dt ∧ t.st = s.st ∧ t.pulse = false

/-- LD Vx, DT reads the timer before the step's tick; LD DT, Vx and LD ST, Vx write what the tick of the same step then
decrements, with a pulse exactly when 1 was written to the sound timer (R250, R251, R252, the last as spec/90_conflicts.md C4
reads the source). -/
def Obligations.TimerMoves : Prop :=
  ∀ (x : Reg) (s : State),
    (∃ t, exec (.ldVxDT x) s = .next t ∧ t.reg x = s.dt ∧ RegsKept [x] s t ∧ Frame [.v] s t) ∧
    (∃ t, exec (.ldDTVx x) s = .next t ∧ t.dt = s.reg x ∧ Frame [.dt] s t) ∧
    (∃ t, exec (.ldSTVx x) s = .next t ∧ t.st = s.reg x ∧ Frame [.st] s t) ∧
    (∀ op, s.status = .running → s.fetch = .ok op →
      (decodeWord op = .ok (.ldVxDT x) → ∃ t, step s = .next t ∧ t.reg x = s.dt ∧ t.dt.toNat = s.dt.toNat - 1) ∧
      (decodeWord op = .ok (.ldDTVx x) → ∃ t, step s = .next t ∧ t.dt.toNat = (s.reg x).toNat - 1) ∧
      (decodeWord op = .ok (.ldSTVx x) → ∃ t, step s = .next t ∧ t.st.toNat = (s.reg x).toNat - 1 ∧
        (t.pulse = true ↔ (s.reg x).toNat = 1)))

/-! ## Memory -/

/-- The two memory primitives: `n` bytes lowest address first, or the lowest address of the range above 4095 and nothing done;
a range of no bytes raises nothing (R10). -/
def Obligations.MemoryPrimitivesCheckTheWholeRange : Prop :=
  ∀ (m : Memory) (a : Nat),
    (∀ n : Nat, (∀ k, k < n → a + k ≤ 4095) →
      ∃ bs, m.memRead a n = .ok bs ∧ bs.length = n ∧ ∀ k, k < n → bs[k]? = some (m.read (a + k))) ∧
    (∀ n b : Nat, a ≤ b → b < a + n → 4095 < b → (∀ c, a ≤ c → c < b → c ≤ 4095) → m.memRead a n = .error b) ∧
    (∀ xs : List Byte, m.wf = true → (∀ k, k < xs.length → a + k ≤ 4095) →
      ∃ m', m.memWrite a xs = .ok m' ∧ m'.wf = true ∧ (∀ k, k < xs.length → some (m'.read (a + k)) = xs[k]?) ∧
        ∀ b, (b < a ∨ a + xs.length ≤ b) → m'.read b = m.read b) ∧
    (∀ (xs : List Byte) (b : Nat), a ≤ b → b < a + xs.length → 4095 < b → (∀ c, a ≤ c → c < b → c ≤ 4095) →
      m.memWrite a xs = .error b)

/-- Two memories in canonical form that read alike everywhere are the same data (the model's representation of MEM, assumption
log 1). -/
def Obligations.CanonicalMemoriesReadingAlikeAreEqual : Prop :=
  ∀ m m' : Memory, m.wf = true → m'.wf = true → (∀ a, m.read a = m'.read a) → m = m'

/-- A store into the next instruction's address is what the very next fetch reads: LD [I], Vx with `I` the address after the
instruction (spec/20_memory.md section 7, fetch coherence). -/
def Obligations.StoredBytesAreFetchedNext : Prop :=
  ∀ (s : State) (op : Word) (x : Reg), s.status = .running → s.mem.wf = true → s.fetch = .ok op →
    decodeWord op = .ok (.storeRegs x) → 1 ≤ x.val → s.i = s.pc + 2#16 → s.i.toNat + x.val ≤ 4095 →
    ∃ t, step s = .next t ∧ t.status = .running ∧ t.fetch = .ok (wordOfBytes (s.reg 0) (s.reg 1))

/-! ## Control flow -/

/-- RET pops `PC`; with an empty stack it raises `StackUnderflow` and the step changes nothing but `STATUS` and `FAULT`
(spec/41_control_flow.md, RET). The record's info 0, address and opcode, and that the step changes nothing else, are the spec's
decision D7 (assumption logs 5 and 23); that `exec` alone leaves `PC` and `OPCODE` advanced is the model's choice (log 22). -/
def Obligations.ReturnPopsThePc : Prop :=
  (∀ s : State, ∀ h : 0 < s.sp.val,
    ∃ t, exec .ret s = .next t ∧ t.pc = s.stack[s.sp.val - 1]'(by omega) ∧ t.sp.val = s.sp.val - 1 ∧ Frame [.pc, .sp] s t) ∧
  (∀ s : State, s.sp.val = 0 → ∃ t, exec .ret s = .next t ∧ Raised s t .stackUnderflow 0#16) ∧
  (∀ (s : State) (op : Word), s.status = .running → s.fetch = .ok op → decodeWord op = .ok .ret → s.sp.val = 0 →
    ∃ t r, step s = .next t ∧ t.status = .faulted ∧ t.fault = some r ∧ r.cause = .stackUnderflow ∧
      Frame [.status, .fault, .pulse] s t)

/-- CALL pushes the advanced `PC` and jumps; with 16 entries in use it raises `StackOverflow`, and the step changes nothing but
`STATUS` and `FAULT` (spec/41_control_flow.md, CALL). The record's info 0, address and opcode, and that the step changes nothing
else, are the spec's decision D7 (assumption logs 5 and 23); that `exec` alone leaves `PC` and `OPCODE` advanced is the model's
choice (log 22). -/
def Obligations.CallPushesTheReturnAddress : Prop :=
  ∀ nnn : Imm12,
    (∀ s : State, s.sp.val < 16 →
      ∃ t, exec (.call nnn) s = .next t ∧ t.pc.toNat = nnn.toNat ∧ t.sp.val = s.sp.val + 1 ∧
        (∀ k : Fin 16, t.stack[k.val] = if k.val = s.sp.val then s.pc else s.stack[k.val]) ∧ Frame [.pc, .sp, .stack] s t) ∧
    (∀ s : State, s.sp.val = 16 → ∃ t, exec (.call nnn) s = .next t ∧ Raised s t .stackOverflow 0#16) ∧
    (∀ (s : State) (op : Word), s.status = .running → s.fetch = .ok op → decodeWord op = .ok (.call nnn) →
      s.sp.val = 16 → ∃ t r, step s = .next t ∧ t.status = .faulted ∧ t.fault = some r ∧ r.cause = .stackOverflow ∧
        Frame [.status, .fault, .pulse] s t)

/-- After a CALL, a RET from any state that has the depth and the top entry the CALL left comes back to the address after the
CALL, with the depth as before it (spec/41_control_flow.md, calling convention). -/
def Obligations.CallThenReturnComesBack : Prop :=
  ∀ (nnn : Imm12) (s t u : State), s.sp.val < 16 → exec (.call nnn) s = .next t → u.sp = t.sp →
    (∀ k : Fin 16, k.val = s.sp.val → u.stack[k.val] = t.stack[k.val]) →
    ∃ w, exec .ret u = .next w ∧ w.pc = s.pc ∧ w.sp = s.sp

/-- SYS does nothing, for every word 0x0NNN other than 0x00E0 and 0x00EE (R142). -/
def Obligations.SysDoesNothing : Prop :=
  (∀ (nnn : Imm12) (s : State), ∃ t, exec (.sys nnn) s = .next t ∧ Frame [] s t) ∧
  (∀ op : Word, op.toNat < 0x1000 → op ≠ 0x00E0#16 → op ≠ 0x00EE#16 → ∃ nnn, decodeWord op = .ok (.sys nnn))

/-- JP and JP V0 set `PC`, the latter to the unreduced sum, and nothing else (R144, R148). -/
def Obligations.JumpsSetThePc : Prop :=
  ∀ (nnn : Imm12) (s : State),
    (∃ t, exec (.jp nnn) s = .next t ∧ t.pc.toNat = nnn.toNat ∧ Frame [.pc] s t) ∧
    (∃ t, exec (.jpV0 nnn) s = .next t ∧ t.pc.toNat = (s.reg 0).toNat + nnn.toNat ∧ Frame [.pc] s t)

/-- A JP to its own address is a loop that only lets the timers run down: after `n + 1` steps nothing else differs but `OPCODE`
and the pulse (spec/70_reset_and_hazards.md section 5; the spec's decision D27). -/
def Obligations.JumpToSelfOnlyRunsTheTimersDown : Prop :=
  ∀ (n : Nat) (s : State) (op : Word) (nnn : Imm12), s.status = .running → s.fetch = .ok op →
    decodeWord op = .ok (.jp nnn) → s.pc.toNat = nnn.toNat →
    ∃ t, core.run (n + 1) s = .next t ∧ t.dt.toNat = s.dt.toNat - (n + 1) ∧ t.st.toNat = s.st.toNat - (n + 1) ∧
      t.opcode = op ∧ (t.pulse = true ↔ s.st.toNat = n + 1) ∧ Frame [.dt, .st, .pulse, .opcode] s t

/-! ## Skips -/

/-- The four register skips add 2 to `PC` when their condition holds and change nothing else (R160 to R163). -/
def Obligations.RegisterSkips : Prop :=
  ∀ (x y : Reg) (nn : Byte) (s : State),
    (∃ t, exec (.seImm x nn) s = .next t ∧ t.pc = (if s.reg x = nn then s.pc + 2#16 else s.pc) ∧ Frame [.pc] s t) ∧
    (∃ t, exec (.sneImm x nn) s = .next t ∧ t.pc = (if s.reg x = nn then s.pc else s.pc + 2#16) ∧ Frame [.pc] s t) ∧
    (∃ t, exec (.seReg x y) s = .next t ∧ t.pc = (if s.reg x = s.reg y then s.pc + 2#16 else s.pc) ∧ Frame [.pc] s t) ∧
    (∃ t, exec (.sneReg x y) s = .next t ∧ t.pc = (if s.reg x = s.reg y then s.pc else s.pc + 2#16) ∧ Frame [.pc] s t)

/-- The two key skips: with a key number up to 15, SKP skips iff the key is pressed and SKNP iff it is not; above 15 both raise
`KeyIndexError` with the number, which is the spec's decision D11 (assumption log 13); the record is decision D7 (log 23), and
that `exec` alone leaves `PC` and `OPCODE` advanced is the model's choice (log 22). -/
def Obligations.KeySkips : Prop :=
  ∀ (x : Reg) (s : State),
    (∀ k : Reg, (s.reg x).toNat = k.val →
      (∃ t, exec (.skp x) s = .next t ∧ t.pc = (if s.keys[k.val] = true then s.pc + 2#16 else s.pc) ∧ Frame [.pc] s t) ∧
      (∃ t, exec (.sknp x) s = .next t ∧ t.pc = (if s.keys[k.val] = true then s.pc else s.pc + 2#16) ∧ Frame [.pc] s t)) ∧
    (15 < (s.reg x).toNat →
      (∃ t, exec (.skp x) s = .next t ∧ Raised s t .keyIndex ((s.reg x).setWidth 16)) ∧
      (∃ t, exec (.sknp x) s = .next t ∧ Raised s t .keyIndex ((s.reg x).setWidth 16)))

/-! ## Loads, arithmetic, logic, shifts -/

/-- LD Vx, nn; ADD Vx, nn (modulo 256, no flag); LD Vx, Vy: the destination's value, every other register and everything else
unchanged (R170, R171, R172). -/
def Obligations.ImmediateLoadsAndAdds : Prop :=
  ∀ (x y : Reg) (nn : Byte) (s : State),
    (∃ t, exec (.ldImm x nn) s = .next t ∧ t.reg x = nn ∧ RegsKept [x] s t ∧ Frame [.v] s t) ∧
    (∃ t, exec (.addImm x nn) s = .next t ∧ (t.reg x).toNat = ((s.reg x).toNat + nn.toNat) % 256 ∧
      RegsKept [x] s t ∧ Frame [.v] s t) ∧
    (∃ t, exec (.ldReg x y) s = .next t ∧ t.reg x = s.reg y ∧ RegsKept [x] s t ∧ Frame [.v] s t)

/-- OR, AND, XOR, bit by bit, into `Vx`; every other register, `VF` among them, and everything else unchanged
(spec/43_load_alu.md; that VF is not written is decision D4). -/
def Obligations.LogicIsBitwise : Prop :=
  ∀ (x y : Reg) (s : State),
    (∃ t, exec (.orReg x y) s = .next t ∧ (∀ k, (t.reg x).getLsbD k = ((s.reg x).getLsbD k || (s.reg y).getLsbD k)) ∧
      RegsKept [x] s t ∧ Frame [.v] s t) ∧
    (∃ t, exec (.andReg x y) s = .next t ∧ (∀ k, (t.reg x).getLsbD k = ((s.reg x).getLsbD k && (s.reg y).getLsbD k)) ∧
      RegsKept [x] s t ∧ Frame [.v] s t) ∧
    (∃ t, exec (.xorReg x y) s = .next t ∧ (∀ k, (t.reg x).getLsbD k = ((s.reg x).getLsbD k ^^ (s.reg y).getLsbD k)) ∧
      RegsKept [x] s t ∧ Frame [.v] s t)

/-- ADD Vx, Vy: the sum modulo 256, and `VF` = 1 iff the integer sum exceeds 255; with `X = 15` the sum is what remains in `VF`.
That operands are read first and the result is written last are decisions D2, D3 (assumption log 12). -/
def Obligations.AddSetsCarry : Prop :=
  ∀ (x y : Reg) (s : State), ∃ t, exec (.addReg x y) s = .next t ∧
    (t.reg x).toNat = ((s.reg x).toNat + (s.reg y).toNat) % 256 ∧
    (x ≠ 15 → (t.reg 15).toNat = if (s.reg x).toNat + (s.reg y).toNat > 255 then 1 else 0) ∧
    RegsKept [x, 15] s t ∧ Frame [.v] s t

/-- SUB and SUBN: the difference modulo 256, and `VF` = 1 iff there was no borrow, equality included; with `X = 15` the
difference is what remains in `VF`. Decisions D2, D3 (assumption log 12). -/
def Obligations.SubtractionsSetNoBorrow : Prop :=
  ∀ (x y : Reg) (s : State),
    (∃ t, exec (.sub x y) s = .next t ∧
      (t.reg x).toNat = ((s.reg x).toNat + 256 - (s.reg y).toNat) % 256 ∧
      (x ≠ 15 → (t.reg 15).toNat = if (s.reg x).toNat ≥ (s.reg y).toNat then 1 else 0) ∧
      RegsKept [x, 15] s t ∧ Frame [.v] s t) ∧
    (∃ t, exec (.subn x y) s = .next t ∧
      (t.reg x).toNat = ((s.reg y).toNat + 256 - (s.reg x).toNat) % 256 ∧
      (x ≠ 15 → (t.reg 15).toNat = if (s.reg y).toNat ≥ (s.reg x).toNat then 1 else 0) ∧
      RegsKept [x, 15] s t ∧ Frame [.v] s t)

/-- SHR and SHL: `Vx` shifted by one in place, `VF` the bit shifted out, the `Y` field without effect; with `X = 15` the result is
what remains in `VF`. Decisions D2, D3, D4 (assumption logs 12, 16). -/
def Obligations.ShiftsMoveOneBit : Prop :=
  ∀ (x y : Reg) (s : State),
    (∃ t, exec (.shr x y) s = .next t ∧ (t.reg x).toNat = (s.reg x).toNat / 2 ∧
      (x ≠ 15 → (t.reg 15).toNat = (s.reg x).toNat % 2) ∧ RegsKept [x, 15] s t ∧ Frame [.v] s t) ∧
    (∃ t, exec (.shl x y) s = .next t ∧ (t.reg x).toNat = (s.reg x).toNat * 2 % 256 ∧
      (x ≠ 15 → (t.reg 15).toNat = (s.reg x).toNat / 128) ∧ RegsKept [x, 15] s t ∧ Frame [.v] s t)

/-- RND: the next free byte under the mask, hence a bitwise subset of `NN`, for whatever bytes the random source gives; one draw
is used up (spec/43_load_alu.md; decision D13, assumption log 3). -/
def Obligations.RandomIsMasked : Prop :=
  ∀ (x : Reg) (nn : Byte) (s : State), ∃ t, exec (.rnd x nn) s = .next t ∧
    t.reg x = Config.randByte s.draws &&& nn ∧ t.reg x ||| nn = nn ∧ t.draws = s.draws + 1 ∧
    RegsKept [x] s t ∧ Frame [.v, .draws] s t

/-! ## Index register and transfers -/

/-- LD I, ADD I (modulo 65536, no flag) and LD F (the whole byte times 5): `I`'s value, everything else unchanged
(spec/44_index_memory.md; decisions D4, D24, assumption logs 15, 16). -/
def Obligations.IndexRegisterWrites : Prop :=
  ∀ (x : Reg) (nnn : Imm12) (s : State),
    (∃ t, exec (.ldI nnn) s = .next t ∧ t.i.toNat = nnn.toNat ∧ Frame [.i] s t) ∧
    (∃ t, exec (.addI x) s = .next t ∧ t.i.toNat = (s.i.toNat + (s.reg x).toNat) % 65536 ∧ Frame [.i] s t) ∧
    (∃ t, exec (.ldF x) s = .next t ∧ t.i.toNat = (s.reg x).toNat * 5 ∧ Frame [.i] s t)

/-- LD B stores the three decimal digits at `I`, `I+1`, `I+2`, when all three exist, and changes no other byte and nothing else
(spec/44_index_memory.md; that the whole range is checked first is decision D6). -/
def Obligations.DecimalDigitsAreStored : Prop :=
  ∀ (x : Reg) (s : State), s.mem.wf = true → s.i.toNat + 2 ≤ 4095 →
    ∃ t, exec (.ldB x) s = .next t ∧
      (t.mem.read (s.ea 0)).toNat = (s.reg x).toNat / 100 ∧
      (t.mem.read (s.ea 1)).toNat = (s.reg x).toNat / 10 % 10 ∧
      (t.mem.read (s.ea 2)).toNat = (s.reg x).toNat % 10 ∧
      BytesKept (s.ea 0) 3 s t ∧ Frame [.mem] s t

/-- LD [I], Vx stores `V0..Vx` at `I..I+x`, when all of it exists, and changes no other byte and nothing else, `I` included
(spec/44_index_memory.md; decisions D4, D6). -/
def Obligations.RegistersAreStored : Prop :=
  ∀ (x : Reg) (s : State), s.mem.wf = true → s.i.toNat + x.val ≤ 4095 →
    ∃ t, exec (.storeRegs x) s = .next t ∧ (∀ k : Reg, k ≤ x → t.mem.read (s.ea k.val) = s.reg k) ∧
      BytesKept (s.ea 0) (x.val + 1) s t ∧ Frame [.mem] s t

/-- LD Vx, [I] loads `V0..Vx` from `I..I+x`, when all of it exists; the other registers and everything else are unchanged
(spec/44_index_memory.md; decisions D4, D6). -/
def Obligations.RegistersAreLoaded : Prop :=
  ∀ (x : Reg) (s : State), s.i.toNat + x.val ≤ 4095 →
    ∃ t, exec (.loadRegs x) s = .next t ∧ (∀ k : Reg, k ≤ x → t.reg k = s.mem.read (s.ea k.val)) ∧
      (∀ k : Reg, x < k → t.reg k = s.reg k) ∧ Frame [.v] s t

/-- Round trip: after LD [I], Vx, a LD Vx, [I] from any state with the same `I` and the memory it left restores the registers'
values at the store (spec/44_index_memory.md; spec/95_test_vectors.md S6). -/
def Obligations.StoreThenLoadRestoresRegisters : Prop :=
  ∀ (x : Reg) (s t u : State), s.mem.wf = true → s.i.toNat + x.val ≤ 4095 → exec (.storeRegs x) s = .next t →
    u.i = s.i → u.mem = t.mem →
    ∃ w, exec (.loadRegs x) u = .next w ∧ ∀ k : Reg, k ≤ x → w.reg k = s.reg k

/-! ## Display -/

/-- CLS clears every cell and touches nothing else, the draw flag included (R220). -/
def Obligations.ClearScreenClearsEveryCell : Prop :=
  ∀ s : State, ∃ t, exec .cls s = .next t ∧ (∀ p, FrameBuffer.cell t.fb p = false) ∧ Frame [.fb] s t

/-- DRW with its sprite bytes in memory inverts exactly the cells the sprite covers, sets `VF` to 1 iff a covered cell was lit
and else to 0, and sets the draw flag; a height of 0 covers nothing. Nothing else changes. Which bit of a sprite byte is
leftmost is decision D15, the height 0 decision D14 (assumption logs 14, 17). -/
def Obligations.DrawInvertsTheCoveredCells : Prop :=
  ∀ (x y : Reg) (n : Nibble) (s : State), (n.toNat = 0 ∨ s.i.toNat + n.toNat ≤ 4096) →
    ∃ t, exec (.drw x y n) s = .next t ∧
      (∀ p, FrameBuffer.cell t.fb p ≠ FrameBuffer.cell s.fb p ↔
        Covers (s.reg x).toNat (s.reg y).toNat (s.spriteRows n.toNat) p) ∧
      ((t.reg 15 = 1#8 ∧ ∃ p, FrameBuffer.cell s.fb p = true ∧
          Covers (s.reg x).toNat (s.reg y).toNat (s.spriteRows n.toNat) p) ∨
       (t.reg 15 = 0#8 ∧ ∀ p, FrameBuffer.cell s.fb p = true →
          ¬ Covers (s.reg x).toNat (s.reg y).toNat (s.spriteRows n.toNat) p)) ∧
      t.draw = true ∧ RegsKept [15] s t ∧ Frame [.v, .fb, .draw] s t

/-- Drawing the same sprite at the same place twice restores the frame buffer, and the second draw's `VF` is 1 iff the first
had turned a cell on (spec/45_display.md, collision flag; decision D15). -/
def Obligations.DrawingTwiceRestoresTheScreen : Prop :=
  ∀ (x y : Reg) (n : Nibble) (s t : State), x ≠ 15 → y ≠ 15 → (n.toNat = 0 ∨ s.i.toNat + n.toNat ≤ 4096) →
    exec (.drw x y n) s = .next t →
    ∃ u, exec (.drw x y n) t = .next u ∧ (∀ p, FrameBuffer.cell u.fb p = FrameBuffer.cell s.fb p) ∧
      (u.reg 15 = 1#8 ↔ ∃ p, FrameBuffer.cell s.fb p = false ∧ FrameBuffer.cell t.fb p = true)

/-- Coordinates wrap and nothing is clipped: a sprite bit at (`r`, `c`) goes to `((x0+c) mod 64, (y0+r) mod 32)`, no two bits of
one sprite to the same cell, and two draws whose start coordinates agree mod 64 and mod 32 do the same (R223). -/
def Obligations.DrawCoordinatesWrap : Prop :=
  (∀ x0 y0 r c : Nat, (pixelAt (x0 + c) (y0 + r)).val = (x0 + c) % 64 + (y0 + r) % 32 * 64) ∧
  (∀ x0 y0 r c r' c' : Nat, c < 8 → c' < 8 → r < 15 → r' < 15 →
    pixelAt (x0 + c) (y0 + r) = pixelAt (x0 + c') (y0 + r') → r = r' ∧ c = c') ∧
  (∀ (x y : Reg) (n : Nibble) (s s' t t' : State), s'.i = s.i → s'.mem = s.mem → s'.fb = s.fb →
    (s'.reg x).toNat % 64 = (s.reg x).toNat % 64 → (s'.reg y).toNat % 32 = (s.reg y).toNat % 32 →
    (n.toNat = 0 ∨ s.i.toNat + n.toNat ≤ 4096) → exec (.drw x y n) s = .next t → exec (.drw x y n) s' = .next t' →
    (∀ p, FrameBuffer.cell t'.fb p = FrameBuffer.cell t.fb p) ∧ t'.reg 15 = t.reg 15)

/-- A step never clears the draw flag, and only a DRW sets it (spec/10_state.md section 7). -/
def Obligations.OnlyDrawSetsTheDrawFlag : Prop :=
  ∀ s t : State, step s = .next t → t.draw ≠ s.draw →
    t.draw = true ∧ s.status = .running ∧ ∃ op x y n, s.fetch = .ok op ∧ decodeWord op = .ok (.drw x y n)

/-! ## Waiting for a key -/

/-- LD Vx, K takes the lowest pressed key at once; with none pressed it only starts the wait (spec/46_keypad_timers.md; the
choice of the lowest and the level test are decision D12, assumption log 10). -/
def Obligations.WaitForKeyTakesTheLowestOrWaits : Prop :=
  ∀ (x : Reg) (s : State),
    (∀ k : Reg, s.keys[k.val] = true → (∀ j : Reg, j < k → s.keys[j.val] = false) →
      ∃ t, exec (.ldVxK x) s = .next t ∧ (t.reg x).toNat = k.val ∧ RegsKept [x] s t ∧ Frame [.v] s t) ∧
    ((∀ k : Reg, s.keys[k.val] = false) →
      ∃ t, exec (.ldVxK x) s = .next t ∧ t.status = .awaitingKey ∧ Frame [.status] s t)

/-! ## The host -/

/-- `load` of an image that fits copies it to memory from 512 upward and changes no other byte and nothing else (R305). -/
def Obligations.LoadCopiesTheImage : Prop :=
  ∀ (rom : List Byte) (s : State), s.mem.wf = true → rom.length ≤ 3584 →
    ∃ t, s.load rom = .ok t ∧ (∀ k, k < rom.length → some (t.mem.read (512 + k)) = rom[k]?) ∧
      BytesKept 512 rom.length s t ∧ Frame [.mem] s t ∧ hostAct (.load rom) s = .next t

/-- A longer image is rejected with its length, and the machine is left as it was (spec/70_reset_and_hazards.md section 2;
decision D19). -/
def Obligations.OversizedImageIsRejected : Prop :=
  ∀ (rom : List Byte) (s : State), 3584 < rom.length →
    s.load rom = .error (.romTooLarge rom.length) ∧ hostAct (.load rom) s = .next s

/-- `reset()` from any state leaves every piece of state at its reset value, memory at font and zeros; the draw flag, opcode and
run state are decision D18 (assumption log 18), the font bytes the default of D16 (log 2), the draw count the model's own (log 8). -/
def Obligations.ResetValues : Prop :=
  ∀ s : State, ∃ t, hostAct .reset s = .next t ∧
    (∀ r : Reg, t.reg r = 0#8) ∧ t.i = 0#16 ∧ t.pc = 0x200#16 ∧ t.sp.val = 0 ∧ (∀ k : Fin 16, t.stack[k.val] = 0#16) ∧
    t.dt = 0#8 ∧ t.st = 0#8 ∧ (∀ p, FrameBuffer.cell t.fb p = false) ∧ t.draw = false ∧
    (∀ k : Reg, t.keys[k.val] = false) ∧ t.opcode = 0#16 ∧ t.status = .running ∧ t.fault = none ∧ t.pulse = false ∧
    (∀ a, a < 80 → some (t.mem.read a) = font[a]?) ∧ (∀ a, 80 ≤ a → t.mem.read a = 0#8) ∧
    t.draws = s.draws ∧ Frame [.draws] State.reset t

/-- `set_keys` overwrites the whole latch (R308) and `clear_draw` clears the draw flag (R309), and neither does anything else. -/
def Obligations.HostInputsWriteOnePiece : Prop :=
  ∀ s : State,
    (∀ k : KeyLatch, ∃ t, hostAct (.setKeys k) s = .next t ∧ (∀ j : Reg, t.keys[j.val] = k[j.val]) ∧ Frame [.keys] s t) ∧
    (∃ t, hostAct .clearDraw s = .next t ∧ t.draw = false ∧ Frame [.draw] s t)
end

