-- ==== Sys2Proof/Laws/Decode.lean ====
section
/-! SUPPORT. Fields and encodings as integers: the fields of an encoded word are the operands laid out in it (spec rules R91
to R96), and a word is its fields put together again. -/
namespace Sys2Proof

/-! ## Fields as integers (R8) -/

theorem fieldT_toNat (op : Word) : (fieldT op).toNat = op.toNat / 4096 := by
  have := op.isLt
  simp [fieldT, BitVec.extractLsb'_toNat, Nat.shiftRight_eq_div_pow]
  omega

theorem fieldX_val (op : Word) : (fieldX op).val = op.toNat / 256 % 16 := by
  simp [fieldX, Nat.shiftRight_eq_div_pow]

theorem fieldY_val (op : Word) : (fieldY op).val = op.toNat / 16 % 16 := by
  simp [fieldY, Nat.shiftRight_eq_div_pow]

theorem fieldN_toNat (op : Word) : (fieldN op).toNat = op.toNat % 16 := by
  simp [fieldN, BitVec.extractLsb'_toNat]

theorem fieldNN_toNat (op : Word) : (fieldNN op).toNat = op.toNat % 256 := by
  simp [fieldNN, BitVec.extractLsb'_toNat]

theorem fieldNNN_toNat (op : Word) : (fieldNNN op).toNat = op.toNat % 4096 := by
  simp [fieldNNN, BitVec.extractLsb'_toNat]

/-! ## Encodings as integers (R91) -/

theorem nibbleOf_toNat (x : Reg) : (nibbleOf x).toNat = x.val := rfl

/-- A concatenation as an integer: `{a, b}` with `a` in the high bits (R7). -/
theorem toNat_append_eq {n m : Nat} (a : BitVec n) (b : BitVec m) : (a ++ b).toNat = a.toNat * 2 ^ m + b.toNat := by
  rw [BitVec.toNat_append, Nat.shiftLeft_eq, Nat.mul_comm, ← Nat.two_pow_add_eq_or_of_lt b.isLt]

theorem encodeA_toNat (t : Nibble) (nnn : Imm12) : (encodeA t nnn).toNat = t.toNat * 4096 + nnn.toNat :=
  toNat_append_eq t nnn

theorem encodeXI_toNat (t : Nibble) (x : Reg) (nn : Byte) :
    (encodeXI t x nn).toNat = t.toNat * 4096 + (x.val * 256 + nn.toNat) := by
  refine (toNat_append_eq t _).trans ?_
  rw [toNat_append_eq, nibbleOf_toNat]
  rfl

theorem encodeXY_toNat (t : Nibble) (x y : Reg) (n : Nibble) :
    (encodeXY t x y n).toNat = t.toNat * 4096 + (x.val * 256 + (y.val * 16 + n.toNat)) := by
  refine (toNat_append_eq t _).trans ?_
  rw [toNat_append_eq, toNat_append_eq, nibbleOf_toNat, nibbleOf_toNat]
  rfl

/-- The integer a big-endian pair of bytes stands for (R64). -/
theorem wordOfBytes_toNat (hi lo : Byte) : (wordOfBytes hi lo).toNat = hi.toNat * 256 + lo.toNat := toNat_append_eq hi lo

/-- A word is put together again from its two bytes (R64). -/
@[simp] theorem wordOfBytes_bytes (op : Word) : wordOfBytes (highByte op) (lowByte op) = op := by
  apply BitVec.eq_of_toNat_eq
  have := op.isLt
  simp [wordOfBytes_toNat, highByte, lowByte, BitVec.extractLsb'_toNat, Nat.shiftRight_eq_div_pow]
  omega

/-! ## Fields of an encoded word -/

@[simp] theorem fieldT_encodeA (t : Nibble) (nnn : Imm12) : fieldT (encodeA t nnn) = t := by
  apply BitVec.eq_of_toNat_eq; rw [fieldT_toNat, encodeA_toNat]; omega

@[simp] theorem fieldNNN_encodeA (t : Nibble) (nnn : Imm12) : fieldNNN (encodeA t nnn) = nnn := by
  apply BitVec.eq_of_toNat_eq; rw [fieldNNN_toNat, encodeA_toNat]; omega

@[simp] theorem fieldT_encodeXI (t : Nibble) (x : Reg) (nn : Byte) : fieldT (encodeXI t x nn) = t := by
  apply BitVec.eq_of_toNat_eq; rw [fieldT_toNat, encodeXI_toNat]; omega

@[simp] theorem fieldX_encodeXI (t : Nibble) (x : Reg) (nn : Byte) : fieldX (encodeXI t x nn) = x := by
  apply Fin.ext; rw [fieldX_val, encodeXI_toNat]; omega

@[simp] theorem fieldNN_encodeXI (t : Nibble) (x : Reg) (nn : Byte) : fieldNN (encodeXI t x nn) = nn := by
  apply BitVec.eq_of_toNat_eq; rw [fieldNN_toNat, encodeXI_toNat]; omega

@[simp] theorem fieldT_encodeXY (t : Nibble) (x y : Reg) (n : Nibble) : fieldT (encodeXY t x y n) = t := by
  apply BitVec.eq_of_toNat_eq; rw [fieldT_toNat, encodeXY_toNat]; omega

@[simp] theorem fieldX_encodeXY (t : Nibble) (x y : Reg) (n : Nibble) : fieldX (encodeXY t x y n) = x := by
  apply Fin.ext; rw [fieldX_val, encodeXY_toNat]; omega

@[simp] theorem fieldY_encodeXY (t : Nibble) (x y : Reg) (n : Nibble) : fieldY (encodeXY t x y n) = y := by
  apply Fin.ext; rw [fieldY_val, encodeXY_toNat]; omega

@[simp] theorem fieldN_encodeXY (t : Nibble) (x y : Reg) (n : Nibble) : fieldN (encodeXY t x y n) = n := by
  apply BitVec.eq_of_toNat_eq; rw [fieldN_toNat, encodeXY_toNat]; omega

/-! ## A word is its fields put together -/

theorem encodeA_fields (op : Word) : encodeA (fieldT op) (fieldNNN op) = op := by
  apply BitVec.eq_of_toNat_eq; rw [encodeA_toNat, fieldT_toNat, fieldNNN_toNat]; omega

theorem encodeXI_fields (op : Word) : encodeXI (fieldT op) (fieldX op) (fieldNN op) = op := by
  apply BitVec.eq_of_toNat_eq; rw [encodeXI_toNat, fieldT_toNat, fieldX_val, fieldNN_toNat]; omega

theorem encodeXY_fields (op : Word) : encodeXY (fieldT op) (fieldX op) (fieldY op) (fieldN op) = op := by
  apply BitVec.eq_of_toNat_eq; rw [encodeXY_toNat, fieldT_toNat, fieldX_val, fieldY_val, fieldN_toNat]; omega

end Sys2Proof
end

