-- ==== Sys2Proof/Laws/FrameBuffer.lean ====
section
/-! SUPPORT. The laws of the frame buffer: one flip, a run of flips, and the pixels of a sprite (spec rules R31, R222 to R224). -/
namespace Sys2Proof.Machine

/-- Flipping one pixel changes that pixel and no other (R222). -/
theorem FrameBuffer.cell_flip (fb : FrameBuffer) (p q : Pixel) :
    FrameBuffer.cell (FrameBuffer.flip fb p) q = (FrameBuffer.cell fb q ^^ decide (q = p)) := by
  have hp := p.isLt
  have hq := q.isLt
  unfold FrameBuffer.cell FrameBuffer.flip
  by_cases hrow : p.val / 64 = q.val / 64
  · have hb : decide (q = p) = decide (p.val % 64 = q.val % 64) := by
      congr 1
      rw [eq_iff_iff, Fin.ext_iff]
      omega
    have : q.val % 64 < 64 := Nat.mod_lt _ (by decide)
    simp [hrow, BitVec.getLsbD_twoPow, hb]
    omega
  · have hne : q ≠ p := fun e => hrow (by rw [e])
    simp [hrow, hne]

/-- Every cell of a cleared buffer is 0 (R220). -/
@[simp] theorem FrameBuffer.cell_clear (p : Pixel) : FrameBuffer.cell FrameBuffer.clear p = false := by
  unfold FrameBuffer.cell FrameBuffer.clear
  simp

/-- The buffer after a run of flips of distinct pixels: exactly the listed pixels are inverted. -/
theorem FrameBuffer.cell_blit {ps : List Pixel} (hnd : ps.Nodup) : ∀ (fb : FrameBuffer) (hit : Bool) (q : Pixel),
    FrameBuffer.cell (FrameBuffer.blit ps fb hit).1 q = (FrameBuffer.cell fb q ^^ decide (q ∈ ps)) := by
  induction ps with
  | nil => intro fb hit q; simp [FrameBuffer.blit]
  | cons p ps ih =>
    intro fb hit q
    obtain ⟨hp, hnd⟩ := List.nodup_cons.mp hnd
    rw [FrameBuffer.blit, ih hnd, FrameBuffer.cell_flip]
    by_cases hq : q = p
    · subst hq; simp [hp]
    · simp [hq]

/-- The collision of a run of flips of distinct pixels: some listed pixel was lit before the run (R224). -/
theorem FrameBuffer.hit_blit {ps : List Pixel} (hnd : ps.Nodup) : ∀ (fb : FrameBuffer) (hit : Bool),
    (FrameBuffer.blit ps fb hit).2 = (hit || ps.any fun p => FrameBuffer.cell fb p) := by
  induction ps with
  | nil => intro fb hit; simp [FrameBuffer.blit]
  | cons p ps ih =>
    intro fb hit
    obtain ⟨hp, hnd⟩ := List.nodup_cons.mp hnd
    have hrest : ps.any (fun q => FrameBuffer.cell (FrameBuffer.flip fb p) q) = ps.any fun q => FrameBuffer.cell fb q := by
      rw [Bool.eq_iff_iff]
      simp only [List.any_eq_true, FrameBuffer.cell_flip]
      refine exists_congr fun q => and_congr_right fun hq => ?_
      have : q ≠ p := fun e => hp (e ▸ hq)
      simp [this]
    rw [FrameBuffer.blit, ih hnd, hrest, List.any_cons, Bool.or_assoc]

/-! ## The pixels of a sprite -/

theorem pixelAt_val (x y : Nat) : (pixelAt x y).val = x % 64 + y % 32 * 64 := rfl

/-- A pixel of one sprite row: a column under a 1 bit, bit 7 leftmost (R222, R227). -/
theorem mem_rowPixels {x y : Nat} {b : Byte} {p : Pixel} :
    p ∈ rowPixels x y b ↔ ∃ c, c < 8 ∧ b.getLsbD (7 - c) = true ∧ p = pixelAt (x + c) y := by
  simp only [rowPixels, List.mem_filterMap, List.mem_range]
  constructor
  · rintro ⟨c, hc, h⟩
    split at h
    · exact ⟨c, hc, ‹_›, (Option.some.inj h).symm⟩
    · cases h
  · rintro ⟨c, hc, hb, rfl⟩
    exact ⟨c, hc, by simp [hb]⟩

/-- A pixel of a sprite: some row's byte has a 1 bit over it (R222, R223). -/
theorem mem_spritePixels {rows : List Byte} : ∀ {x y : Nat} {p : Pixel},
    p ∈ spritePixels x y rows ↔
      ∃ r c b, rows[r]? = some b ∧ c < 8 ∧ b.getLsbD (7 - c) = true ∧ p = pixelAt (x + c) (y + r) := by
  induction rows with
  | nil => intro x y p; simp [spritePixels]
  | cons b rows ih =>
    intro x y p
    rw [spritePixels, List.mem_append, mem_rowPixels, ih]
    constructor
    · rintro (⟨c, hc, hb, rfl⟩ | ⟨r, c, b', hr, hc, hb, rfl⟩)
      · exact ⟨0, c, b, by simp, hc, hb, rfl⟩
      · exact ⟨r + 1, c, b', by simpa using hr, hc, hb, by congr 1; omega⟩
    · rintro ⟨r, c, b', hr, hc, hb, rfl⟩
      cases r with
      | zero =>
        simp only [List.getElem?_cons_zero, Option.some.injEq] at hr
        subst hr
        exact .inl ⟨c, hc, hb, rfl⟩
      | succ r =>
        exact .inr ⟨r, c, b', by simpa using hr, hc, hb, by congr 1; omega⟩

/-- The columns of one row are distinct pixels: 8 columns are fewer than 64 (R223). -/
theorem nodup_rowPixels (x y : Nat) (b : Byte) : (rowPixels x y b).Nodup := by
  unfold rowPixels
  rw [List.Nodup, List.pairwise_filterMap]
  refine (List.Pairwise.and_mem.mp List.nodup_range).imp ?_
  rintro c c' ⟨hc, hc', hne⟩ p hp q hq rfl
  rw [List.mem_range] at hc hc'
  split at hp <;> simp only [Option.some.injEq, reduceCtorEq] at hp
  split at hq <;> simp only [Option.some.injEq, reduceCtorEq] at hq
  have e := congrArg Fin.val (hp.trans hq.symm)
  simp only [pixelAt_val] at e
  omega

/-- No two bits of one sprite of at most 32 rows map to the same cell (R223). -/
theorem nodup_spritePixels {rows : List Byte} : ∀ {x y : Nat}, rows.length ≤ 32 → (spritePixels x y rows).Nodup := by
  induction rows with
  | nil => intros; simp [spritePixels]
  | cons b rows ih =>
    intro x y h
    simp only [List.length_cons] at h
    rw [spritePixels, List.nodup_append]
    refine ⟨nodup_rowPixels x y b, ih (by omega), ?_⟩
    rintro p hp q hq rfl
    obtain ⟨c, hc, _, rfl⟩ := mem_rowPixels.mp hp
    obtain ⟨r, c', b', hr, hc', _, e⟩ := mem_spritePixels.mp hq
    have hlt : r < rows.length := (List.getElem?_eq_some_iff.mp hr).1
    have e := congrArg Fin.val e
    simp only [pixelAt_val] at e
    omega

end Sys2Proof.Machine
end

