-- ==== Sys2Proof/Laws/Memory.lean ====
section
/-! SUPPORT. The laws of memory: the canonical form under every operation, read after write, and what the checked transfers
`memRead` and `memWrite` answer. -/
namespace Sys2Proof.Machine

/-! ## The canonical form -/

/-- A bound below the first address may be lowered or dropped. -/
theorem Memory.wfAbove_weaken {m : Memory} {lo lo' : Option Nat} (h : m.wfAbove lo = true)
    (hle : ∀ l', lo' = some l' → ∃ l, lo = some l ∧ l' ≤ l) : m.wfAbove lo' = true := by
  cases m with
  | nil => rfl
  | cons c m =>
    obtain ⟨a, x⟩ := c
    cases lo' with
    | none =>
      simp only [Memory.wfAbove, Bool.and_eq_true] at h ⊢
      exact ⟨⟨⟨trivial, h.1.1.2⟩, h.1.2⟩, h.2⟩
    | some l' =>
      obtain ⟨l, rfl, hl⟩ := hle l' rfl
      simp only [Memory.wfAbove, Bool.and_eq_true, decide_eq_true_eq] at h ⊢
      exact ⟨⟨⟨by omega, h.1.1.2⟩, h.1.2⟩, h.2⟩

/-- An address at or below the bound is unlisted: it reads as reset left it. -/
theorem Memory.read_of_le_bound {m : Memory} {l a : Nat} (h : m.wfAbove (some l) = true) (ha : a ≤ l) :
    m.read a = resetByte a := by
  induction m generalizing l with
  | nil => rfl
  | cons c m ih =>
    obtain ⟨b, x⟩ := c
    simp only [Memory.wfAbove, Bool.and_eq_true, decide_eq_true_eq] at h
    have hne : a ≠ b := by omega
    rw [Memory.read, if_neg hne]
    exact ih h.2 (by omega)

/-- A write keeps the canonical form above any bound below its address. -/
theorem Memory.wfAbove_write {m : Memory} {lo : Option Nat} {a : Nat} (x : Byte) (h : m.wfAbove lo = true)
    (hlo : ∀ l, lo = some l → l < a) (ha : a < Config.memSize) : (m.write a x).wfAbove lo = true := by
  induction m generalizing lo with
  | nil =>
    rw [Memory.write]
    split
    · rfl
    · cases lo with
      | none => simp_all [Memory.wfAbove]
      | some l => simp_all [Memory.wfAbove]
  | cons c m ih =>
    obtain ⟨b, w⟩ := c
    rw [Memory.write]
    have hm : Memory.wfAbove (some b) m = true := by
      simp only [Memory.wfAbove, Bool.and_eq_true] at h; exact h.2
    split
    · split
      · exact h
      · rename_i hab hx
        have hb : Memory.wfAbove (some a) ((b, w) :: m) = true := by
          simp only [Memory.wfAbove, Bool.and_eq_true, decide_eq_true_eq] at h ⊢
          exact ⟨⟨⟨hab, h.1.1.2⟩, h.1.2⟩, h.2⟩
        cases lo with
        | none => simp_all [Memory.wfAbove]
        | some l =>
          rw [Memory.wfAbove]
          simp only [Bool.and_eq_true, decide_eq_true_eq]
          exact ⟨⟨⟨hlo l rfl, ha⟩, hx⟩, hb⟩
    · split
      · rename_i hne hab
        subst hab
        split
        · exact Memory.wfAbove_weaken hm (fun l' e => ⟨a, rfl, Nat.le_of_lt (hlo l' e)⟩)
        · cases lo with
          | none => simp_all [Memory.wfAbove]
          | some l => simp_all [Memory.wfAbove]
      · rename_i h1 h2
        have := ih hm (fun l e => by cases e; omega)
        simp only [Memory.wfAbove, Bool.and_eq_true] at h ⊢
        exact ⟨h.1, this⟩

/-- A write of one byte keeps the canonical form. -/
theorem Memory.wf_write {m : Memory} {a : Nat} (x : Byte) (h : m.wf = true) (ha : a < Config.memSize) :
    (m.write a x).wf = true :=
  Memory.wfAbove_write x h (fun _ e => by cases e) ha

/-- A write of several bytes inside the address space keeps the canonical form. -/
theorem Memory.wf_writeBytes {xs : List Byte} : ∀ {m : Memory} {a : Nat}, m.wf = true →
    a + xs.length ≤ Config.memSize → (m.writeBytes a xs).wf = true := by
  induction xs with
  | nil => intro m a h _; exact h
  | cons x xs ih =>
    intro m a h ha
    simp only [List.length_cons] at ha
    exact ih (Memory.wf_write x h (by omega)) (by omega)

/-! ## Reads and writes -/

/-- A write leaves every other address alone, in any memory (R69). -/
theorem Memory.read_write_ne {a b : Nat} (h : b ≠ a) (x : Byte) : ∀ m : Memory, (m.write a x).read b = m.read b := by
  intro m
  induction m with
  | nil => rw [Memory.write]; split <;> simp [Memory.read, h]
  | cons c m ih =>
    obtain ⟨e, w⟩ := c
    rw [Memory.write]
    split
    · split <;> simp [Memory.read, h]
    · split
      · rename_i hab
        subst hab
        split <;> simp [Memory.read, h]
      · simp [Memory.read, ih]

/-- A write is read back, above any bound below its address. -/
theorem Memory.read_write_same_above {m : Memory} {lo : Option Nat} (h : m.wfAbove lo = true) (a : Nat) (x : Byte) :
    (m.write a x).read a = x := by
  induction m generalizing lo with
  | nil => rw [Memory.write]; split <;> simp_all [Memory.read]
  | cons c m ih =>
    obtain ⟨e, w⟩ := c
    have hm : Memory.wfAbove (some e) m = true := by
      simp only [Memory.wfAbove, Bool.and_eq_true] at h; exact h.2
    rw [Memory.write]
    split
    · rename_i hae
      split
      · rename_i hx
        have hne : a ≠ e := by omega
        rw [Memory.read, if_neg hne, Memory.read_of_le_bound hm (by omega), hx]
      · simp [Memory.read]
    · split
      · rename_i hae
        subst hae
        split
        · rename_i hx
          rw [Memory.read_of_le_bound hm (Nat.le_refl _), hx]
        · simp [Memory.read]
      · rename_i hae
        rw [Memory.read, if_neg hae]
        exact ih hm

/-- In canonical form a write is read back (R69). -/
theorem Memory.read_write_same {m : Memory} (h : m.wf = true) (a : Nat) (x : Byte) : (m.write a x).read a = x :=
  Memory.read_write_same_above h a x

/-- Bytes written from `a` upward, read at any address inside the space (R10). -/
theorem Memory.read_writeBytes {xs : List Byte} : ∀ {m : Memory} {a : Nat}, m.wf = true →
    a + xs.length ≤ Config.memSize → ∀ b, (m.writeBytes a xs).read b =
      if a ≤ b ∧ b < a + xs.length then xs.getD (b - a) 0#8 else m.read b := by
  induction xs with
  | nil => intro m a _ _ b; rw [if_neg (by simp)]; rfl
  | cons x xs ih =>
    intro m a h ha b
    simp only [List.length_cons] at ha ⊢
    rw [Memory.writeBytes, ih (Memory.wf_write x h (by omega)) (by omega)]
    rcases Nat.lt_trichotomy b a with hb | hb | hb
    · rw [if_neg (by omega), if_neg (by omega), Memory.read_write_ne (by omega)]
    · subst hb
      rw [if_neg (by omega), if_pos (by omega), Memory.read_write_same h]
      simp
    · have hs : b - a = (b - (a + 1)) + 1 := by omega
      by_cases hin : b < a + (xs.length + 1)
      · rw [if_pos (by omega), if_pos (by omega), hs]; simp
      · rw [if_neg (by omega), if_neg (by omega), Memory.read_write_ne (by omega)]

/-- Bytes outside the range written keep their values, in any memory. -/
theorem Memory.read_writeBytes_outside {xs : List Byte} : ∀ {m : Memory} {a b : Nat}, (b < a ∨ a + xs.length ≤ b) →
    (m.writeBytes a xs).read b = m.read b := by
  induction xs with
  | nil => intros; rfl
  | cons x xs ih =>
    intro m a b h
    simp only [List.length_cons] at h
    rw [Memory.writeBytes, ih (by omega), Memory.read_write_ne (by omega)]

@[simp] theorem Memory.readBytes_length (m : Memory) (n : Nat) : ∀ a, (m.readBytes a n).length = n := by
  induction n with
  | zero => intro a; rfl
  | succ n ih => intro a; simp [Memory.readBytes, ih]

/-- The `k`-th byte read. -/
theorem Memory.readBytes_getElem? (m : Memory) (n : Nat) : ∀ a k, k < n → (m.readBytes a n)[k]? = some (m.read (a + k)) := by
  induction n with
  | zero => intro a k h; omega
  | succ n ih =>
    intro a k h
    cases k with
    | zero => simp [Memory.readBytes]
    | succ k => simp only [Memory.readBytes, List.getElem?_cons_succ]; rw [ih (a + 1) k (by omega)]; congr 2; omega

/-- The bytes read, as a map over their offsets. -/
theorem Memory.readBytes_eq_map (m : Memory) (a n : Nat) :
    m.readBytes a n = (List.range n).map fun k => m.read (a + k) := by
  apply List.ext_getElem?
  intro k
  by_cases h : k < n
  · rw [Memory.readBytes_getElem? m n a k h]
    simp [h]
  · rw [List.getElem?_eq_none (by simp; omega), List.getElem?_eq_none (by simp; omega)]

/-! ## The bounds check (R10, R67) -/

theorem badAddress_eq_none {a n : Nat} : badAddress a n = none ↔ n = 0 ∨ a + n ≤ 4096 := by
  unfold badAddress
  split <;> simp_all [Config.memSize]

theorem badAddress_eq_some {a n b : Nat} : badAddress a n = some b ↔ 0 < n ∧ 4096 < a + n ∧ b = max a 4096 := by
  unfold badAddress
  split
  · simp; simp only [Config.memSize] at *; omega
  · simp only [Option.some.injEq, Config.memSize] at *; omega

/-- Everything `memRead` can answer. -/
theorem Memory.memRead_cases (m : Memory) (a n : Nat) :
    ((n = 0 ∨ a + n ≤ 4096) ∧ m.memRead a n = .ok (m.readBytes a n)) ∨
    (0 < n ∧ 4096 < a + n ∧ m.memRead a n = .error (max a 4096)) := by
  by_cases h : n = 0 ∨ a + n ≤ 4096
  · exact .inl ⟨h, by rw [Memory.memRead, badAddress_eq_none.mpr h]⟩
  · exact .inr ⟨by omega, by omega, by rw [Memory.memRead, badAddress_eq_some.mpr ⟨by omega, by omega, rfl⟩]⟩

/-- Everything `memWrite` can answer. -/
theorem Memory.memWrite_cases (m : Memory) (a : Nat) (xs : List Byte) :
    ((xs = [] ∨ a + xs.length ≤ 4096) ∧ m.memWrite a xs = .ok (m.writeBytes a xs)) ∨
    (xs ≠ [] ∧ 4096 < a + xs.length ∧ m.memWrite a xs = .error (max a 4096)) := by
  by_cases h : xs.length = 0 ∨ a + xs.length ≤ 4096
  · refine .inl ⟨?_, by rw [Memory.memWrite, badAddress_eq_none.mpr h]⟩
    simpa using h
  · refine .inr ⟨?_, by omega, by rw [Memory.memWrite, badAddress_eq_some.mpr ⟨by omega, by omega, rfl⟩]⟩
    intro e
    simp [e] at h

/-- A checked write keeps the canonical form. -/
theorem Memory.wf_memWrite {m m' : Memory} {a : Nat} {xs : List Byte} (h : m.wf = true)
    (hw : m.memWrite a xs = .ok m') : m'.wf = true := by
  rcases Memory.memWrite_cases m a xs with ⟨hin, he⟩ | ⟨_, _, he⟩
  · rw [he] at hw
    cases hw
    rcases hin with rfl | hin
    · exact h
    · exact Memory.wf_writeBytes h hin
  · rw [he] at hw; cases hw

/-- The reset state's memory is in canonical form. -/
theorem State.reset_mem_wf : State.reset.mem.wf = true := rfl

end Sys2Proof.Machine
end

