-- ==== Sys2Proof/Laws/State.lean ====
section
/-! SUPPORT. The small laws of State's updates: one lemma per field per update, so that no proof unfolds a record update. -/
namespace Sys2Proof.Machine

variable (s : State)

/-! ## setReg -/

@[simp] theorem State.setReg_v (r : Reg) (x : Byte) : (State.setReg s r x).v = s.v.set r.val x := rfl
@[simp] theorem State.setReg_i (r : Reg) (x : Byte) : (State.setReg s r x).i = s.i := rfl
@[simp] theorem State.setReg_pc (r : Reg) (x : Byte) : (State.setReg s r x).pc = s.pc := rfl
@[simp] theorem State.setReg_sp (r : Reg) (x : Byte) : (State.setReg s r x).sp = s.sp := rfl
@[simp] theorem State.setReg_stack (r : Reg) (x : Byte) : (State.setReg s r x).stack = s.stack := rfl
@[simp] theorem State.setReg_dt (r : Reg) (x : Byte) : (State.setReg s r x).dt = s.dt := rfl
@[simp] theorem State.setReg_st (r : Reg) (x : Byte) : (State.setReg s r x).st = s.st := rfl
@[simp] theorem State.setReg_fb (r : Reg) (x : Byte) : (State.setReg s r x).fb = s.fb := rfl
@[simp] theorem State.setReg_draw (r : Reg) (x : Byte) : (State.setReg s r x).draw = s.draw := rfl
@[simp] theorem State.setReg_keys (r : Reg) (x : Byte) : (State.setReg s r x).keys = s.keys := rfl
@[simp] theorem State.setReg_opcode (r : Reg) (x : Byte) : (State.setReg s r x).opcode = s.opcode := rfl
@[simp] theorem State.setReg_status (r : Reg) (x : Byte) : (State.setReg s r x).status = s.status := rfl
@[simp] theorem State.setReg_fault (r : Reg) (x : Byte) : (State.setReg s r x).fault = s.fault := rfl
@[simp] theorem State.setReg_mem (r : Reg) (x : Byte) : (State.setReg s r x).mem = s.mem := rfl
@[simp] theorem State.setReg_pulse (r : Reg) (x : Byte) : (State.setReg s r x).pulse = s.pulse := rfl
@[simp] theorem State.setReg_draws (r : Reg) (x : Byte) : (State.setReg s r x).draws = s.draws := rfl

/-! ## setVF -/

@[simp] theorem State.setVF_v (x : Byte) : (State.setVF s x).v = s.v.set vfReg.val x := rfl
@[simp] theorem State.setVF_i (x : Byte) : (State.setVF s x).i = s.i := rfl
@[simp] theorem State.setVF_pc (x : Byte) : (State.setVF s x).pc = s.pc := rfl
@[simp] theorem State.setVF_sp (x : Byte) : (State.setVF s x).sp = s.sp := rfl
@[simp] theorem State.setVF_stack (x : Byte) : (State.setVF s x).stack = s.stack := rfl
@[simp] theorem State.setVF_dt (x : Byte) : (State.setVF s x).dt = s.dt := rfl
@[simp] theorem State.setVF_st (x : Byte) : (State.setVF s x).st = s.st := rfl
@[simp] theorem State.setVF_fb (x : Byte) : (State.setVF s x).fb = s.fb := rfl
@[simp] theorem State.setVF_draw (x : Byte) : (State.setVF s x).draw = s.draw := rfl
@[simp] theorem State.setVF_keys (x : Byte) : (State.setVF s x).keys = s.keys := rfl
@[simp] theorem State.setVF_opcode (x : Byte) : (State.setVF s x).opcode = s.opcode := rfl
@[simp] theorem State.setVF_status (x : Byte) : (State.setVF s x).status = s.status := rfl
@[simp] theorem State.setVF_fault (x : Byte) : (State.setVF s x).fault = s.fault := rfl
@[simp] theorem State.setVF_mem (x : Byte) : (State.setVF s x).mem = s.mem := rfl
@[simp] theorem State.setVF_pulse (x : Byte) : (State.setVF s x).pulse = s.pulse := rfl
@[simp] theorem State.setVF_draws (x : Byte) : (State.setVF s x).draws = s.draws := rfl

/-! ## setRegs -/

@[simp] theorem State.setRegs_v (bs : List Byte) : (State.setRegs s bs).v = putRegs s.v 0 bs := rfl
@[simp] theorem State.setRegs_i (bs : List Byte) : (State.setRegs s bs).i = s.i := rfl
@[simp] theorem State.setRegs_pc (bs : List Byte) : (State.setRegs s bs).pc = s.pc := rfl
@[simp] theorem State.setRegs_sp (bs : List Byte) : (State.setRegs s bs).sp = s.sp := rfl
@[simp] theorem State.setRegs_stack (bs : List Byte) : (State.setRegs s bs).stack = s.stack := rfl
@[simp] theorem State.setRegs_dt (bs : List Byte) : (State.setRegs s bs).dt = s.dt := rfl
@[simp] theorem State.setRegs_st (bs : List Byte) : (State.setRegs s bs).st = s.st := rfl
@[simp] theorem State.setRegs_fb (bs : List Byte) : (State.setRegs s bs).fb = s.fb := rfl
@[simp] theorem State.setRegs_draw (bs : List Byte) : (State.setRegs s bs).draw = s.draw := rfl
@[simp] theorem State.setRegs_keys (bs : List Byte) : (State.setRegs s bs).keys = s.keys := rfl
@[simp] theorem State.setRegs_opcode (bs : List Byte) : (State.setRegs s bs).opcode = s.opcode := rfl
@[simp] theorem State.setRegs_status (bs : List Byte) : (State.setRegs s bs).status = s.status := rfl
@[simp] theorem State.setRegs_fault (bs : List Byte) : (State.setRegs s bs).fault = s.fault := rfl
@[simp] theorem State.setRegs_mem (bs : List Byte) : (State.setRegs s bs).mem = s.mem := rfl
@[simp] theorem State.setRegs_pulse (bs : List Byte) : (State.setRegs s bs).pulse = s.pulse := rfl
@[simp] theorem State.setRegs_draws (bs : List Byte) : (State.setRegs s bs).draws = s.draws := rfl

/-! ## setI -/

@[simp] theorem State.setI_v (x : Word) : (State.setI s x).v = s.v := rfl
@[simp] theorem State.setI_i (x : Word) : (State.setI s x).i = x := rfl
@[simp] theorem State.setI_pc (x : Word) : (State.setI s x).pc = s.pc := rfl
@[simp] theorem State.setI_sp (x : Word) : (State.setI s x).sp = s.sp := rfl
@[simp] theorem State.setI_stack (x : Word) : (State.setI s x).stack = s.stack := rfl
@[simp] theorem State.setI_dt (x : Word) : (State.setI s x).dt = s.dt := rfl
@[simp] theorem State.setI_st (x : Word) : (State.setI s x).st = s.st := rfl
@[simp] theorem State.setI_fb (x : Word) : (State.setI s x).fb = s.fb := rfl
@[simp] theorem State.setI_draw (x : Word) : (State.setI s x).draw = s.draw := rfl
@[simp] theorem State.setI_keys (x : Word) : (State.setI s x).keys = s.keys := rfl
@[simp] theorem State.setI_opcode (x : Word) : (State.setI s x).opcode = s.opcode := rfl
@[simp] theorem State.setI_status (x : Word) : (State.setI s x).status = s.status := rfl
@[simp] theorem State.setI_fault (x : Word) : (State.setI s x).fault = s.fault := rfl
@[simp] theorem State.setI_mem (x : Word) : (State.setI s x).mem = s.mem := rfl
@[simp] theorem State.setI_pulse (x : Word) : (State.setI s x).pulse = s.pulse := rfl
@[simp] theorem State.setI_draws (x : Word) : (State.setI s x).draws = s.draws := rfl

/-! ## setPC -/

@[simp] theorem State.setPC_v (x : Word) : (State.setPC s x).v = s.v := rfl
@[simp] theorem State.setPC_i (x : Word) : (State.setPC s x).i = s.i := rfl
@[simp] theorem State.setPC_pc (x : Word) : (State.setPC s x).pc = x := rfl
@[simp] theorem State.setPC_sp (x : Word) : (State.setPC s x).sp = s.sp := rfl
@[simp] theorem State.setPC_stack (x : Word) : (State.setPC s x).stack = s.stack := rfl
@[simp] theorem State.setPC_dt (x : Word) : (State.setPC s x).dt = s.dt := rfl
@[simp] theorem State.setPC_st (x : Word) : (State.setPC s x).st = s.st := rfl
@[simp] theorem State.setPC_fb (x : Word) : (State.setPC s x).fb = s.fb := rfl
@[simp] theorem State.setPC_draw (x : Word) : (State.setPC s x).draw = s.draw := rfl
@[simp] theorem State.setPC_keys (x : Word) : (State.setPC s x).keys = s.keys := rfl
@[simp] theorem State.setPC_opcode (x : Word) : (State.setPC s x).opcode = s.opcode := rfl
@[simp] theorem State.setPC_status (x : Word) : (State.setPC s x).status = s.status := rfl
@[simp] theorem State.setPC_fault (x : Word) : (State.setPC s x).fault = s.fault := rfl
@[simp] theorem State.setPC_mem (x : Word) : (State.setPC s x).mem = s.mem := rfl
@[simp] theorem State.setPC_pulse (x : Word) : (State.setPC s x).pulse = s.pulse := rfl
@[simp] theorem State.setPC_draws (x : Word) : (State.setPC s x).draws = s.draws := rfl

/-! ## skip -/

@[simp] theorem State.skip_v : (State.skip s).v = s.v := rfl
@[simp] theorem State.skip_i : (State.skip s).i = s.i := rfl
@[simp] theorem State.skip_pc : (State.skip s).pc = s.pc + 2#16 := rfl
@[simp] theorem State.skip_sp : (State.skip s).sp = s.sp := rfl
@[simp] theorem State.skip_stack : (State.skip s).stack = s.stack := rfl
@[simp] theorem State.skip_dt : (State.skip s).dt = s.dt := rfl
@[simp] theorem State.skip_st : (State.skip s).st = s.st := rfl
@[simp] theorem State.skip_fb : (State.skip s).fb = s.fb := rfl
@[simp] theorem State.skip_draw : (State.skip s).draw = s.draw := rfl
@[simp] theorem State.skip_keys : (State.skip s).keys = s.keys := rfl
@[simp] theorem State.skip_opcode : (State.skip s).opcode = s.opcode := rfl
@[simp] theorem State.skip_status : (State.skip s).status = s.status := rfl
@[simp] theorem State.skip_fault : (State.skip s).fault = s.fault := rfl
@[simp] theorem State.skip_mem : (State.skip s).mem = s.mem := rfl
@[simp] theorem State.skip_pulse : (State.skip s).pulse = s.pulse := rfl
@[simp] theorem State.skip_draws : (State.skip s).draws = s.draws := rfl

/-! ## noPulse -/

@[simp] theorem State.noPulse_v : (State.noPulse s).v = s.v := rfl
@[simp] theorem State.noPulse_i : (State.noPulse s).i = s.i := rfl
@[simp] theorem State.noPulse_pc : (State.noPulse s).pc = s.pc := rfl
@[simp] theorem State.noPulse_sp : (State.noPulse s).sp = s.sp := rfl
@[simp] theorem State.noPulse_stack : (State.noPulse s).stack = s.stack := rfl
@[simp] theorem State.noPulse_dt : (State.noPulse s).dt = s.dt := rfl
@[simp] theorem State.noPulse_st : (State.noPulse s).st = s.st := rfl
@[simp] theorem State.noPulse_fb : (State.noPulse s).fb = s.fb := rfl
@[simp] theorem State.noPulse_draw : (State.noPulse s).draw = s.draw := rfl
@[simp] theorem State.noPulse_keys : (State.noPulse s).keys = s.keys := rfl
@[simp] theorem State.noPulse_opcode : (State.noPulse s).opcode = s.opcode := rfl
@[simp] theorem State.noPulse_status : (State.noPulse s).status = s.status := rfl
@[simp] theorem State.noPulse_fault : (State.noPulse s).fault = s.fault := rfl
@[simp] theorem State.noPulse_mem : (State.noPulse s).mem = s.mem := rfl
@[simp] theorem State.noPulse_pulse : (State.noPulse s).pulse = false := rfl
@[simp] theorem State.noPulse_draws : (State.noPulse s).draws = s.draws := rfl

/-! ## takeFault -/

@[simp] theorem State.takeFault_v (c : Cause) (info pc : Word) (op : Option Word) : (State.takeFault s c info pc op).v = s.v := rfl
@[simp] theorem State.takeFault_i (c : Cause) (info pc : Word) (op : Option Word) : (State.takeFault s c info pc op).i = s.i := rfl
@[simp] theorem State.takeFault_pc (c : Cause) (info pc : Word) (op : Option Word) : (State.takeFault s c info pc op).pc = s.pc := rfl
@[simp] theorem State.takeFault_sp (c : Cause) (info pc : Word) (op : Option Word) : (State.takeFault s c info pc op).sp = s.sp := rfl
@[simp] theorem State.takeFault_stack (c : Cause) (info pc : Word) (op : Option Word) : (State.takeFault s c info pc op).stack = s.stack := rfl
@[simp] theorem State.takeFault_dt (c : Cause) (info pc : Word) (op : Option Word) : (State.takeFault s c info pc op).dt = s.dt := rfl
@[simp] theorem State.takeFault_st (c : Cause) (info pc : Word) (op : Option Word) : (State.takeFault s c info pc op).st = s.st := rfl
@[simp] theorem State.takeFault_fb (c : Cause) (info pc : Word) (op : Option Word) : (State.takeFault s c info pc op).fb = s.fb := rfl
@[simp] theorem State.takeFault_draw (c : Cause) (info pc : Word) (op : Option Word) : (State.takeFault s c info pc op).draw = s.draw := rfl
@[simp] theorem State.takeFault_keys (c : Cause) (info pc : Word) (op : Option Word) : (State.takeFault s c info pc op).keys = s.keys := rfl
@[simp] theorem State.takeFault_opcode (c : Cause) (info pc : Word) (op : Option Word) : (State.takeFault s c info pc op).opcode = s.opcode := rfl
@[simp] theorem State.takeFault_status (c : Cause) (info pc : Word) (op : Option Word) : (State.takeFault s c info pc op).status = RunStatus.faulted := rfl
@[simp] theorem State.takeFault_fault (c : Cause) (info pc : Word) (op : Option Word) : (State.takeFault s c info pc op).fault = some { cause := c, info := info, faultPC := pc, faultOpcode := op } := rfl
@[simp] theorem State.takeFault_mem (c : Cause) (info pc : Word) (op : Option Word) : (State.takeFault s c info pc op).mem = s.mem := rfl
@[simp] theorem State.takeFault_pulse (c : Cause) (info pc : Word) (op : Option Word) : (State.takeFault s c info pc op).pulse = s.pulse := rfl
@[simp] theorem State.takeFault_draws (c : Cause) (info pc : Word) (op : Option Word) : (State.takeFault s c info pc op).draws = s.draws := rfl

/-! ## beginExecute -/

@[simp] theorem State.beginExecute_v (op : Word) : (State.beginExecute s op).v = s.v := rfl
@[simp] theorem State.beginExecute_i (op : Word) : (State.beginExecute s op).i = s.i := rfl
@[simp] theorem State.beginExecute_pc (op : Word) : (State.beginExecute s op).pc = s.pc + 2#16 := rfl
@[simp] theorem State.beginExecute_sp (op : Word) : (State.beginExecute s op).sp = s.sp := rfl
@[simp] theorem State.beginExecute_stack (op : Word) : (State.beginExecute s op).stack = s.stack := rfl
@[simp] theorem State.beginExecute_dt (op : Word) : (State.beginExecute s op).dt = s.dt := rfl
@[simp] theorem State.beginExecute_st (op : Word) : (State.beginExecute s op).st = s.st := rfl
@[simp] theorem State.beginExecute_fb (op : Word) : (State.beginExecute s op).fb = s.fb := rfl
@[simp] theorem State.beginExecute_draw (op : Word) : (State.beginExecute s op).draw = s.draw := rfl
@[simp] theorem State.beginExecute_keys (op : Word) : (State.beginExecute s op).keys = s.keys := rfl
@[simp] theorem State.beginExecute_opcode (op : Word) : (State.beginExecute s op).opcode = op := rfl
@[simp] theorem State.beginExecute_status (op : Word) : (State.beginExecute s op).status = s.status := rfl
@[simp] theorem State.beginExecute_fault (op : Word) : (State.beginExecute s op).fault = s.fault := rfl
@[simp] theorem State.beginExecute_mem (op : Word) : (State.beginExecute s op).mem = s.mem := rfl
@[simp] theorem State.beginExecute_pulse (op : Word) : (State.beginExecute s op).pulse = false := rfl
@[simp] theorem State.beginExecute_draws (op : Word) : (State.beginExecute s op).draws = s.draws := rfl

/-! ## tick -/

@[simp] theorem State.tick_v : (State.tick s).v = s.v := rfl
@[simp] theorem State.tick_i : (State.tick s).i = s.i := rfl
@[simp] theorem State.tick_pc : (State.tick s).pc = s.pc := rfl
@[simp] theorem State.tick_sp : (State.tick s).sp = s.sp := rfl
@[simp] theorem State.tick_stack : (State.tick s).stack = s.stack := rfl
@[simp] theorem State.tick_dt : (State.tick s).dt = if 0#8 < s.dt then s.dt - 1#8 else s.dt := rfl
@[simp] theorem State.tick_st : (State.tick s).st = if 0#8 < s.st then s.st - 1#8 else s.st := rfl
@[simp] theorem State.tick_fb : (State.tick s).fb = s.fb := rfl
@[simp] theorem State.tick_draw : (State.tick s).draw = s.draw := rfl
@[simp] theorem State.tick_keys : (State.tick s).keys = s.keys := rfl
@[simp] theorem State.tick_opcode : (State.tick s).opcode = s.opcode := rfl
@[simp] theorem State.tick_status : (State.tick s).status = s.status := rfl
@[simp] theorem State.tick_fault : (State.tick s).fault = s.fault := rfl
@[simp] theorem State.tick_mem : (State.tick s).mem = s.mem := rfl
@[simp] theorem State.tick_pulse : (State.tick s).pulse = if s.st = 1#8 then true else s.pulse := rfl
@[simp] theorem State.tick_draws : (State.tick s).draws = s.draws := rfl

/-! ## setKeys -/

@[simp] theorem State.setKeys_v (k : KeyLatch) : (State.setKeys s k).v = s.v := rfl
@[simp] theorem State.setKeys_i (k : KeyLatch) : (State.setKeys s k).i = s.i := rfl
@[simp] theorem State.setKeys_pc (k : KeyLatch) : (State.setKeys s k).pc = s.pc := rfl
@[simp] theorem State.setKeys_sp (k : KeyLatch) : (State.setKeys s k).sp = s.sp := rfl
@[simp] theorem State.setKeys_stack (k : KeyLatch) : (State.setKeys s k).stack = s.stack := rfl
@[simp] theorem State.setKeys_dt (k : KeyLatch) : (State.setKeys s k).dt = s.dt := rfl
@[simp] theorem State.setKeys_st (k : KeyLatch) : (State.setKeys s k).st = s.st := rfl
@[simp] theorem State.setKeys_fb (k : KeyLatch) : (State.setKeys s k).fb = s.fb := rfl
@[simp] theorem State.setKeys_draw (k : KeyLatch) : (State.setKeys s k).draw = s.draw := rfl
@[simp] theorem State.setKeys_keys (k : KeyLatch) : (State.setKeys s k).keys = k := rfl
@[simp] theorem State.setKeys_opcode (k : KeyLatch) : (State.setKeys s k).opcode = s.opcode := rfl
@[simp] theorem State.setKeys_status (k : KeyLatch) : (State.setKeys s k).status = s.status := rfl
@[simp] theorem State.setKeys_fault (k : KeyLatch) : (State.setKeys s k).fault = s.fault := rfl
@[simp] theorem State.setKeys_mem (k : KeyLatch) : (State.setKeys s k).mem = s.mem := rfl
@[simp] theorem State.setKeys_pulse (k : KeyLatch) : (State.setKeys s k).pulse = s.pulse := rfl
@[simp] theorem State.setKeys_draws (k : KeyLatch) : (State.setKeys s k).draws = s.draws := rfl

/-! ## clearDraw -/

@[simp] theorem State.clearDraw_v : (State.clearDraw s).v = s.v := rfl
@[simp] theorem State.clearDraw_i : (State.clearDraw s).i = s.i := rfl
@[simp] theorem State.clearDraw_pc : (State.clearDraw s).pc = s.pc := rfl
@[simp] theorem State.clearDraw_sp : (State.clearDraw s).sp = s.sp := rfl
@[simp] theorem State.clearDraw_stack : (State.clearDraw s).stack = s.stack := rfl
@[simp] theorem State.clearDraw_dt : (State.clearDraw s).dt = s.dt := rfl
@[simp] theorem State.clearDraw_st : (State.clearDraw s).st = s.st := rfl
@[simp] theorem State.clearDraw_fb : (State.clearDraw s).fb = s.fb := rfl
@[simp] theorem State.clearDraw_draw : (State.clearDraw s).draw = false := rfl
@[simp] theorem State.clearDraw_keys : (State.clearDraw s).keys = s.keys := rfl
@[simp] theorem State.clearDraw_opcode : (State.clearDraw s).opcode = s.opcode := rfl
@[simp] theorem State.clearDraw_status : (State.clearDraw s).status = s.status := rfl
@[simp] theorem State.clearDraw_fault : (State.clearDraw s).fault = s.fault := rfl
@[simp] theorem State.clearDraw_mem : (State.clearDraw s).mem = s.mem := rfl
@[simp] theorem State.clearDraw_pulse : (State.clearDraw s).pulse = s.pulse := rfl
@[simp] theorem State.clearDraw_draws : (State.clearDraw s).draws = s.draws := rfl

/-! ## hostReset -/

@[simp] theorem State.hostReset_v : (State.hostReset s).v = State.reset.v := by simp only [State.hostReset]
@[simp] theorem State.hostReset_i : (State.hostReset s).i = State.reset.i := by simp only [State.hostReset]
@[simp] theorem State.hostReset_pc : (State.hostReset s).pc = State.reset.pc := by simp only [State.hostReset]
@[simp] theorem State.hostReset_sp : (State.hostReset s).sp = State.reset.sp := by simp only [State.hostReset]
@[simp] theorem State.hostReset_stack : (State.hostReset s).stack = State.reset.stack := by simp only [State.hostReset]
@[simp] theorem State.hostReset_dt : (State.hostReset s).dt = State.reset.dt := by simp only [State.hostReset]
@[simp] theorem State.hostReset_st : (State.hostReset s).st = State.reset.st := by simp only [State.hostReset]
@[simp] theorem State.hostReset_fb : (State.hostReset s).fb = State.reset.fb := by simp only [State.hostReset]
@[simp] theorem State.hostReset_draw : (State.hostReset s).draw = State.reset.draw := by simp only [State.hostReset]
@[simp] theorem State.hostReset_keys : (State.hostReset s).keys = State.reset.keys := by simp only [State.hostReset]
@[simp] theorem State.hostReset_opcode : (State.hostReset s).opcode = State.reset.opcode := by simp only [State.hostReset]
@[simp] theorem State.hostReset_status : (State.hostReset s).status = State.reset.status := by simp only [State.hostReset]
@[simp] theorem State.hostReset_fault : (State.hostReset s).fault = State.reset.fault := by simp only [State.hostReset]
@[simp] theorem State.hostReset_mem : (State.hostReset s).mem = State.reset.mem := by simp only [State.hostReset]
@[simp] theorem State.hostReset_pulse : (State.hostReset s).pulse = State.reset.pulse := by simp only [State.hostReset]
@[simp] theorem State.hostReset_draws : (State.hostReset s).draws = s.draws := by simp only [State.hostReset]

/-! ## Register reads -/

@[simp] theorem State.reg_setReg_same (r : Reg) (x : Byte) : (s.setReg r x).reg r = x := by
  simp [State.reg]

theorem State.reg_setReg_ne {r q : Reg} (h : q ≠ r) (x : Byte) : (s.setReg r x).reg q = s.reg q := by
  have h' : r.val ≠ q.val := fun e => h (Fin.ext e.symm)
  simp [State.reg, h']

/-- One register write, read at any register. -/
theorem State.reg_setReg (r q : Reg) (x : Byte) : (s.setReg r x).reg q = if q = r then x else s.reg q := by
  split
  · subst_vars; simp
  · exact State.reg_setReg_ne s ‹_› x

theorem State.reg_setVF (q : Reg) (x : Byte) : (s.setVF x).reg q = if q = 15 then x else s.reg q :=
  State.reg_setReg s vfReg q x

@[simp] theorem State.setVF_eq_setReg (x : Byte) : s.setVF x = s.setReg 15 x := rfl

/-- Entries put from `k` upward, read at any entry. -/
theorem putRegs_getElem (bs : List Byte) : ∀ (v : Vector Byte 16) (k j : Nat) (hj : j < 16),
    (putRegs v k bs)[j] = if j < k then v[j] else bs.getD (j - k) v[j] := by
  induction bs with
  | nil => intro v k j hj; simp [putRegs]
  | cons b bs ih =>
    intro v k j hj
    rw [putRegs, ih]
    rcases Nat.lt_trichotomy j k with h | h | h
    · have h1 : k ≠ j := by omega
      have h2 : j < k + 1 := by omega
      simp [h, h1, h2]
    · subst h; simp
    · have h1 : k ≠ j := by omega
      have h2 : ¬ j < k + 1 := by omega
      have h3 : ¬ j < k := by omega
      have h4 : j - k = (j - (k + 1)) + 1 := by omega
      simp [h1, h2, h3, h4]

/-- A load of several registers, read at any register. -/
theorem State.reg_setRegs (bs : List Byte) (q : Reg) : (s.setRegs bs).reg q = bs.getD q.val (s.reg q) := by
  simp [State.reg, putRegs_getElem]

/-- Two states with the same `V` read alike. -/
theorem State.reg_congr {s t : State} (h : t.v = s.v) (r : Reg) : t.reg r = s.reg r := by simp [State.reg, h]

@[simp] theorem State.setI_reg (x : Word) (r : Reg) : (State.setI s x).reg r = s.reg r := rfl
@[simp] theorem State.setPC_reg (x : Word) (r : Reg) : (State.setPC s x).reg r = s.reg r := rfl
@[simp] theorem State.skip_reg (r : Reg) : (State.skip s).reg r = s.reg r := rfl
@[simp] theorem State.noPulse_reg (r : Reg) : (State.noPulse s).reg r = s.reg r := rfl
@[simp] theorem State.takeFault_reg (c : Cause) (info pc : Word) (op : Option Word) (r : Reg) : (State.takeFault s c info pc op).reg r = s.reg r := rfl
@[simp] theorem State.beginExecute_reg (op : Word) (r : Reg) : (State.beginExecute s op).reg r = s.reg r := rfl
@[simp] theorem State.tick_reg (r : Reg) : (State.tick s).reg r = s.reg r := rfl
@[simp] theorem State.setKeys_reg (k : KeyLatch) (r : Reg) : (State.setKeys s k).reg r = s.reg r := rfl
@[simp] theorem State.clearDraw_reg (r : Reg) : (State.clearDraw s).reg r = s.reg r := rfl

end Sys2Proof.Machine
end

