-- ==== Sys2Proof/Laws/Ops.lean ====
section
/-! SUPPORT. One law for each shared operation, saying once everything it can answer; the inversion of a step; the algebra of
frames. -/
namespace Sys2Proof.Machine

/-! ## Results -/

@[simp] theorem next_inj {s t : State} : (Host.Outcome.next s : Result) = .next t ↔ s = t :=
  ⟨fun h => by cases h; rfl, fun h => by rw [h]⟩

/-! ## Call stack (R28) -/

/-- Everything a push can do. -/
theorem State.pushed_cases (s : State) (ret : Word) :
    (∃ h : s.sp.val < 16, s.pushed ret =
      some { s with stack := s.stack.set s.sp.val ret, sp := ⟨s.sp.val + 1, Nat.succ_lt_succ h⟩ }) ∨
    (s.sp.val = 16 ∧ s.pushed ret = none) := by
  by_cases h : s.sp.val < 16
  · exact .inl ⟨h, dif_pos h⟩
  · exact .inr ⟨by have := s.sp.isLt; omega, dif_neg h⟩

/-- Everything a pop can do. -/
theorem State.popped_cases (s : State) :
    (∃ h : 0 < s.sp.val, s.popped =
      some { s with pc := s.stack[s.sp.val - 1]'(by omega), sp := ⟨s.sp.val - 1, by omega⟩ }) ∨
    (s.sp.val = 0 ∧ s.popped = none) := by
  by_cases h : 0 < s.sp.val
  · exact .inl ⟨h, dif_pos h⟩
  · exact .inr ⟨by omega, dif_neg h⟩

/-! ## Keys (R242, R245) -/

/-- No key is found exactly when none is pressed. -/
theorem KeyLatch.first_eq_none {keys : KeyLatch} : KeyLatch.first keys = none ↔ ∀ k : Reg, keys[k.val] = false := by
  simp [KeyLatch.first, List.find?_eq_none]

/-- In a splitting of the key numbers at `k`, every lower number lies before it. -/
theorem mem_before_of_lt {as bs : List Reg} {j k : Reg} (e : List.finRange 16 = as ++ k :: bs) (hj : j < k) : j ∈ as := by
  have hp : (as ++ k :: bs).Pairwise (· < ·) := e ▸ List.pairwise_lt_finRange 16
  have hk := (List.pairwise_cons.mp (List.pairwise_append.mp hp).2.1).1
  rcases List.mem_append.mp (e ▸ List.mem_finRange j : j ∈ as ++ k :: bs) with h | h
  · exact h
  · rcases List.mem_cons.mp h with rfl | h
    · exact absurd hj (lt_irrefl _)
    · exact absurd hj (not_lt_of_gt (hk j h))

/-- The key found is the lowest pressed one. -/
theorem KeyLatch.first_eq_some {keys : KeyLatch} {k : Reg} :
    KeyLatch.first keys = some k ↔ keys[k.val] = true ∧ ∀ j : Reg, j < k → keys[j.val] = false := by
  unfold KeyLatch.first
  rw [List.find?_eq_some_iff_append]
  constructor
  · rintro ⟨hk, as, bs, e, hall⟩
    exact ⟨hk, fun j hj => by simpa using hall j (mem_before_of_lt e hj)⟩
  · rintro ⟨hk, hall⟩
    obtain ⟨as, bs, e⟩ := List.append_of_mem (List.mem_finRange k)
    refine ⟨hk, as, bs, e, fun j hj => ?_⟩
    have hp : (as ++ k :: bs).Pairwise (· < ·) := e ▸ List.pairwise_lt_finRange 16
    have := (List.pairwise_append.mp hp).2.2 j hj k (List.mem_cons_self ..)
    simp [hall j this]

/-- A register's value selects the key of that number, or none above 15. -/
theorem keyOf_eq_some {x : Byte} {k : Reg} : keyOf x = some k ↔ x.toNat = k.val := by
  unfold keyOf
  split
  · rw [Option.some.injEq, Fin.ext_iff]
  · have := k.isLt
    simp
    omega

theorem keyOf_eq_none {x : Byte} : keyOf x = none ↔ 15 < x.toNat := by
  unfold keyOf
  split <;> simp <;> omega

/-- A key's code is its number. -/
@[simp] theorem keyCode_toNat (k : Reg) : (keyCode k).toNat = k.val := by
  have := k.isLt
  simp [keyCode]
  omega

/-! ## Registers -/

/-- The registers `V0..Vx` in order. -/
theorem State.regsUpTo_length (s : State) (x : Reg) : (s.regsUpTo x).length = x.val + 1 := by
  have := x.isLt
  simp [State.regsUpTo]

theorem State.regsUpTo_getD (s : State) (x : Reg) (k : Reg) (h : k ≤ x) (d : Byte) :
    (s.regsUpTo x).getD k.val d = s.reg k := by
  have hk := k.isLt
  have : k.val < x.val + 1 := Nat.lt_succ_of_le h
  simp [State.regsUpTo, State.reg, this]

/-! ## Storing at `I` (R68, R203, R204) -/

/-- Everything a store of `xs` at `I` can do. -/
theorem storeAtI_cases (s : State) (xs : List Byte) :
    ((xs = [] ∨ s.i.toNat + xs.length ≤ 4096) ∧ storeAtI s xs = .next { s with mem := s.mem.writeBytes (s.ea 0) xs }) ∨
    (xs ≠ [] ∧ 4096 < s.i.toNat + xs.length ∧
      storeAtI s xs = .next (s.takeFault .memoryAccess (BitVec.ofNat 16 (max s.i.toNat 4096)) (s.pc - 2#16) (some s.opcode))) := by
  unfold storeAtI
  rcases s.mem.memWrite_cases (s.ea 0) xs with ⟨h, e⟩ | ⟨h, h', e⟩
  · exact .inl ⟨h, by rw [e]⟩
  · exact .inr ⟨h, h', by rw [e]; rfl⟩

/-! ## Steps -/

/-- Everything a fetch can answer (R121). -/
theorem State.fetch_cases (s : State) :
    (s.pc.toNat ≤ 4094 ∧ s.fetch = .ok (wordOfBytes (s.mem.read s.pc.toNat) (s.mem.read (s.pc.toNat + 1)))) ∨
    (4094 < s.pc.toNat ∧ s.fetch = .error (max s.pc.toNat 4096)) := by
  unfold State.fetch
  by_cases h : s.pc.toNat + 2 ≤ 4096
  · exact .inl ⟨by omega, by rw [badAddress_eq_none.mpr (.inr h)]⟩
  · exact .inr ⟨by omega, by rw [badAddress_eq_some.mpr ⟨by omega, by omega, rfl⟩]⟩

/-- A decode error of one word is always the unknown opcode, and names the word. -/
theorem decodeWord_error {op : Word} {e : DecodeError} (h : decodeWord op = .error e) : e = .unknownOpcode op := by
  unfold decodeWord decode8 decodeE decodeF at h
  repeat' split at h
  all_goals first | (cases h; done) | (cases h; rfl)

/-- Everything a step can do when it answers a next state (R120, R133). -/
theorem step_cases {s t : State} (h : step s = .next t) :
    (s.status = .faulted ∧ t = s.noPulse) ∨
    (s.status = .awaitingKey ∧ t = s.noPulse.resume) ∨
    (s.status = .running ∧ 4094 < s.pc.toNat ∧ t = s.fetchFault (max s.pc.toNat 4096)) ∨
    (s.status = .running ∧ ∃ op, s.fetch = .ok op ∧ decodeWord op = .error (.unknownOpcode op) ∧ t = s.decodeFault op) ∨
    (s.status = .running ∧ ∃ op i u, s.fetch = .ok op ∧ decodeWord op = .ok i ∧
      exec i (s.beginExecute op) = .next u ∧ t = s.endStep u) := by
  unfold step at h
  cases hs : s.status with
  | faulted => rw [hs] at h; cases h; exact .inl ⟨rfl, rfl⟩
  | awaitingKey => rw [hs] at h; cases h; exact .inr (.inl ⟨rfl, rfl⟩)
  | running =>
    rw [hs] at h
    rcases s.fetch_cases with ⟨_, hf⟩ | ⟨hpc, hf⟩
    · refine .inr (.inr (.inr ?_))
      generalize wordOfBytes (s.mem.read s.pc.toNat) (s.mem.read (s.pc.toNat + 1)) = op at hf
      simp only [hf] at h
      cases hd : decodeWord op with
      | error e =>
        have he := decodeWord_error hd
        subst he
        rw [hd] at h
        cases h
        exact .inl ⟨rfl, op, hf, hd, rfl⟩
      | ok i =>
        simp only [hd] at h
        cases hx : exec i (s.beginExecute op) with
        | next u => rw [hx] at h; cases h; exact .inr ⟨rfl, op, i, u, hf, hd, hx, rfl⟩
        | fault f => cases f
        | refused r => rw [hx] at h; cases h
    · simp only [hf] at h
      cases h
      exact .inr (.inr (.inl ⟨rfl, hpc, rfl⟩))

/-- The end of a step, by the status the execute phase left (R125, R271). -/
theorem State.endStep_cases (s u : State) :
    (u.status = .running ∧ s.endStep u = u.tick) ∨ (u.status = .awaitingKey ∧ s.endStep u = u) ∨
    (u.status = .faulted ∧ s.endStep u = { s.noPulse with status := u.status, fault := u.fault }) := by
  unfold State.endStep
  cases h : u.status with
  | running => exact .inl ⟨rfl, rfl⟩
  | awaitingKey => exact .inr (.inl ⟨rfl, rfl⟩)
  | faulted => exact .inr (.inr ⟨rfl, by simp⟩)

/-- The resume check, with or without a key (R246). -/
theorem State.resume_cases (s : State) :
    (∃ k, KeyLatch.first s.keys = some k ∧
      s.resume = State.tick { s.setReg (fieldX s.opcode) (keyCode k) with status := .running }) ∨
    (KeyLatch.first s.keys = none ∧ s.resume = s) := by
  unfold State.resume
  cases h : KeyLatch.first s.keys with
  | none => exact .inr ⟨rfl, rfl⟩
  | some k => exact .inl ⟨k, rfl, rfl⟩

/-! ## Frames -/

theorem Part.same_refl (p : Part) (s : State) : p.same s s := by cases p <;> simp [Part.same]

theorem Part.same_trans {p : Part} {s t u : State} (h : p.same s t) (h' : p.same t u) : p.same s u := by
  cases p <;> simp only [Part.same] at h h' ⊢ <;> first | exact h'.trans h | exact fun k => (h' k).trans (h k)

theorem Frame.refl (changed : List Part) (s : State) : Frame changed s s := fun p _ => p.same_refl s

theorem Frame.weaken {c c' : List Part} {s t : State} (h : Frame c s t) (hc : ∀ p ∈ c, p ∈ c') : Frame c' s t :=
  fun p hp => h p fun hp' => hp (hc p hp')

theorem Frame.trans {c c' : List Part} {s t u : State} (h : Frame c s t) (h' : Frame c' t u) : Frame (c ++ c') s u :=
  fun p hp => Part.same_trans (h p fun hp' => hp (List.mem_append_left _ hp'))
    (h' p fun hp' => hp (List.mem_append_right _ hp'))

/-- Taking a fault changes `STATUS` and `FAULT` alone (R270, R271). -/
theorem State.takeFault_frame (s : State) (c : Cause) (info pc : Word) (op : Option Word) :
    Frame [.status, .fault] s (s.takeFault c info pc op) := by
  intro p hp
  cases p <;> simp_all [Part.same]

/-- A raise is a next state in which the fault has been taken (R271). -/
theorem State.raise_raised (s : State) (c : Cause) (info : Word) :
    ∃ t, s.raise c info = .next t ∧ Raised s t c info :=
  ⟨_, rfl, rfl, rfl, s.takeFault_frame c info _ _⟩

/-- A tick changes the timers and the pulse alone (R275). -/
theorem State.tick_frame (s : State) : Frame [.dt, .st, .pulse] s s.tick := by
  intro p hp
  cases p <;> simp_all [Part.same]

/-! ## Register writes, skips, stores, the tick and a load of an image -/

/-- Writing one register changes that register alone. -/
theorem State.setReg_frame (s : State) (r : Reg) (x : Byte) : RegsKept [r] s (s.setReg r x) ∧ Frame [.v] s (s.setReg r x) := by
  refine ⟨fun q hq => State.reg_setReg_ne s (by simpa using hq) x, fun p hp => ?_⟩
  cases p <;> simp_all [Part.same]

/-- Everything a flag-writing register operation does: the result in `Vx`, the flag in `VF` unless `X = 15`, nothing else
(R128). -/
theorem flagThenResult_next (s : State) (flag : Byte) (x : Reg) (result : Byte) :
    ∃ t, flagThenResult s flag x result = .next t ∧ t.reg x = result ∧ (x ≠ 15 → t.reg 15 = flag) ∧
      RegsKept [x, 15] s t ∧ Frame [.v] s t := by
  refine ⟨_, rfl, State.reg_setReg_same _ x result, fun h => ?_, fun q hq => ?_, fun p hp => ?_⟩
  · rw [State.reg_setReg_ne _ (Ne.symm h), State.reg_setVF, if_pos rfl]
  · simp only [List.mem_cons, List.not_mem_nil, or_false, not_or] at hq
    rw [State.reg_setReg_ne _ hq.1, State.reg_setVF, if_neg hq.2]
  · cases p <;> simp_all [Part.same]

/-- Everything a skip does (R164). -/
theorem skipIf_next (c : Bool) (s : State) :
    ∃ t, skipIf c s = .next t ∧ t.pc = (if c then s.pc + 2#16 else s.pc) ∧ Frame [.pc] s t := by
  refine ⟨_, rfl, by cases c <;> rfl, fun p hp => ?_⟩
  cases c <;> cases p <;> simp_all [Part.same]

/-- Replacing the memory changes memory alone. -/
theorem State.mem_frame (s : State) (m : Memory) : Frame [.mem] s { s with mem := m } := by
  intro p hp
  cases p <;> simp_all [Part.same, State.reg]

/-- The timers after a tick (R275). -/
theorem State.tick_timers (s : State) : s.tick.dt.toNat = s.dt.toNat - 1 ∧ s.tick.st.toNat = s.st.toNat - 1 := by
  rw [State.tick_dt, State.tick_st]
  constructor <;> split <;> bv_omega

/-- The pulse after a tick that began without one (R275, R278). -/
theorem State.tick_pulse_iff {s : State} (h : s.pulse = false) : s.tick.pulse = true ↔ s.st.toNat = 1 := by
  rw [State.tick_pulse]
  split
  · simp [*]
  · simp only [h, Bool.false_eq_true, false_iff]
    exact fun e => ‹¬s.st = 1#8› (BitVec.eq_of_toNat_eq e)

/-- Everything a load of an image can do (R305, R306). -/
theorem State.load_cases (s : State) (rom : List Byte) :
    (rom.length ≤ 3584 ∧ s.load rom = .ok { s with mem := s.mem.writeBytes 512 rom }) ∨
    (3584 < rom.length ∧ s.load rom = .error (.romTooLarge rom.length)) := by
  unfold State.load
  by_cases h : rom.length ≤ Config.romMax
  · exact .inl ⟨h, if_pos h⟩
  · exact .inr ⟨Nat.lt_of_not_le h, if_neg h⟩

/-! ## Sprites -/

/-- The pixels a sprite flips are those it covers (R222, R223). -/
theorem mem_spritePixels_iff_covers {x y : Nat} {rows : List Byte} {p : Pixel} :
    p ∈ spritePixels x y rows ↔ Covers x y rows p := by
  rw [mem_spritePixels]
  constructor
  · rintro ⟨r, c, b, hr, hc, hb, rfl⟩
    exact ⟨r, c, hc, ⟨b, hr, hb⟩, rfl⟩
  · rintro ⟨r, c, hc, ⟨b, hr, hb⟩, e⟩
    exact ⟨r, c, b, hr, hc, hb, Fin.ext e⟩

/-- The sprite bytes a draw reads (R226). -/
theorem State.readBytes_eq_spriteRows (s : State) (n : Nat) : s.mem.readBytes (s.ea 0) n = s.spriteRows n :=
  Memory.readBytes_eq_map s.mem _ n

/-- Everything a draw can do (R222 to R226). -/
theorem execDrw_cases (x y : Reg) (n : Nibble) (s : State) :
    ((n.toNat = 0 ∨ s.i.toNat + n.toNat ≤ 4096) ∧ ∃ t, execDrw x y n s = .next t ∧
      (∀ p, FrameBuffer.cell t.fb p = (FrameBuffer.cell s.fb p ^^ decide (p ∈ s.drawPixels x y (s.spriteRows n.toNat)))) ∧
      t.reg 15 = flagByte ((s.drawPixels x y (s.spriteRows n.toNat)).any fun p => FrameBuffer.cell s.fb p) ∧
      t.draw = true ∧ RegsKept [15] s t ∧ Frame [.v, .fb, .draw] s t) ∨
    (0 < n.toNat ∧ 4096 < s.i.toNat + n.toNat ∧ ∃ t, execDrw x y n s = .next t ∧
      Raised s t .memoryAccess (BitVec.ofNat 16 (max s.i.toNat 4096))) := by
  unfold execDrw
  rcases s.mem.memRead_cases (s.ea 0) n.toNat with ⟨h, e⟩ | ⟨h, h', e⟩
  · refine .inl ⟨h, ?_⟩
    have hn : n.toNat < 16 := n.isLt
    have hnd : (s.drawPixels x y (s.spriteRows n.toNat)).Nodup :=
      nodup_spritePixels (by simp [State.spriteRows]; omega)
    rw [e]
    simp only [s.readBytes_eq_spriteRows]
    refine ⟨_, rfl, fun p => FrameBuffer.cell_blit hnd s.fb false p, ?_, rfl, ?_, ?_⟩
    · rw [show ∀ (u : State) f d, ({ u with fb := f, draw := d } : State).reg 15 = u.reg 15 from fun _ _ _ => rfl]
      rw [State.setVF_eq_setReg, State.reg_setReg_same, collisionFlag, FrameBuffer.hit_blit hnd]
      simp
    · intro r hr
      have hr : r ≠ 15 := by simpa using hr
      exact State.reg_setReg_ne s hr _
    · intro p hp
      cases p <;> simp_all [Part.same]
  · exact .inr ⟨h, h', by rw [e]; exact State.raise_raised s _ _⟩

/-- A run of no steps. -/
theorem core_run_zero (s : State) : core.run 0 s = .next s := rfl

/-- A run unfolds at its first step. -/
theorem core_run_succ {n : Nat} {s t : State} (h : step s = .next t) : core.run (n + 1) s = core.run n t := by
  have h' : core.step s = .next t := h
  simp only [Host.Core.run, h']

end Sys2Proof.Machine
end

