-- ==== Sys2Proof/Laws/PerInstr.lean ====
section
/-! SUPPORT. The per-instruction family `MatchesRow`: the word of an instruction has the fixed bits of its row of the opcode map
under the row's mask (spec rules R91, R100). One lemma per constructor. -/
namespace Sys2Proof.Laws.MatchesRow

/-- Under its row's mask the encoded word is the row's `match` (R100). -/
def Statement (i : Instr) : Prop := encode i &&& i.mask = i.fixedBits

/-- A mask laid out in nibbles acts on each nibble by itself. -/
theorem and_nibbles (a b c d a' b' c' d' : Nibble) :
    ((a ++ (b ++ (c ++ d)) : Word) &&& (a' ++ (b' ++ (c' ++ d')) : Word)) =
      ((a &&& a') ++ ((b &&& b') ++ ((c &&& c') ++ (d &&& d'))) : Word) := by
  refine (BitVec.and_append (x₁ := a) (y₁ := b ++ (c ++ d))).trans ?_
  rw [BitVec.and_append, BitVec.and_append]

theorem and_all (a : Nibble) : a &&& 0xF#4 = a := BitVec.and_allOnes

theorem and_none (a : Nibble) : a &&& 0x0#4 = 0x0#4 := BitVec.and_zero

/-- The mask 0xF000 keeps `T` (R91). -/
theorem and_mask_T (op : Word) : op &&& 0xF000#16 = encodeXY (fieldT op) 0 0 0x0#4 := by
  conv_lhs => rw [← encodeXY_fields op]
  refine (and_nibbles _ _ _ _ 0xF#4 0x0#4 0x0#4 0x0#4).trans ?_
  rw [and_all, and_none, and_none, and_none]
  rfl

/-- The mask 0xF00F keeps `T` and `N` (R91). -/
theorem and_mask_TN (op : Word) : op &&& 0xF00F#16 = encodeXY (fieldT op) 0 0 (fieldN op) := by
  conv_lhs => rw [← encodeXY_fields op]
  refine (and_nibbles _ _ _ _ 0xF#4 0x0#4 0x0#4 0xF#4).trans ?_
  rw [and_all, and_none, and_none, and_all]
  rfl

/-- The mask 0xF0FF keeps `T` and `NN` (R91). -/
theorem and_mask_TNN (op : Word) : op &&& 0xF0FF#16 = encodeXI (fieldT op) 0 (fieldNN op) := by
  have h : op &&& 0xF0FF#16 = encodeXY (fieldT op) 0 (fieldY op) (fieldN op) := by
    conv_lhs => rw [← encodeXY_fields op]
    refine (and_nibbles _ _ _ _ 0xF#4 0x0#4 0xF#4 0xF#4).trans ?_
    rw [and_all, and_none, and_all, and_all]
    rfl
  rw [h]
  apply BitVec.eq_of_toNat_eq
  rw [encodeXY_toNat, encodeXI_toNat, fieldNN_toNat, fieldY_val, fieldN_toNat, show (0 : Reg).val = 0 from rfl]
  have := op.isLt
  generalize op.toNat = n at *
  omega

theorem cls : Statement .cls := rfl
theorem ret : Statement .ret := rfl
theorem sys (nnn : Imm12) : Statement (.sys nnn) := by
  rw [Statement, Instr.mask, Instr.fixedBits, encode, and_mask_T, fieldT_encodeA]; rfl
theorem jp (nnn : Imm12) : Statement (.jp nnn) := by
  rw [Statement, Instr.mask, Instr.fixedBits, encode, and_mask_T, fieldT_encodeA]; rfl
theorem call (nnn : Imm12) : Statement (.call nnn) := by
  rw [Statement, Instr.mask, Instr.fixedBits, encode, and_mask_T, fieldT_encodeA]; rfl
theorem seImm (x : Reg) (nn : Byte) : Statement (.seImm x nn) := by
  rw [Statement, Instr.mask, Instr.fixedBits, encode, and_mask_T, fieldT_encodeXI]; rfl
theorem sneImm (x : Reg) (nn : Byte) : Statement (.sneImm x nn) := by
  rw [Statement, Instr.mask, Instr.fixedBits, encode, and_mask_T, fieldT_encodeXI]; rfl
theorem seReg (x y : Reg) : Statement (.seReg x y) := by
  rw [Statement, Instr.mask, Instr.fixedBits, encode, and_mask_TN, fieldT_encodeXY, fieldN_encodeXY]; rfl
theorem ldImm (x : Reg) (nn : Byte) : Statement (.ldImm x nn) := by
  rw [Statement, Instr.mask, Instr.fixedBits, encode, and_mask_T, fieldT_encodeXI]; rfl
theorem addImm (x : Reg) (nn : Byte) : Statement (.addImm x nn) := by
  rw [Statement, Instr.mask, Instr.fixedBits, encode, and_mask_T, fieldT_encodeXI]; rfl
theorem ldReg (x y : Reg) : Statement (.ldReg x y) := by
  rw [Statement, Instr.mask, Instr.fixedBits, encode, and_mask_TN, fieldT_encodeXY, fieldN_encodeXY]; rfl
theorem orReg (x y : Reg) : Statement (.orReg x y) := by
  rw [Statement, Instr.mask, Instr.fixedBits, encode, and_mask_TN, fieldT_encodeXY, fieldN_encodeXY]; rfl
theorem andReg (x y : Reg) : Statement (.andReg x y) := by
  rw [Statement, Instr.mask, Instr.fixedBits, encode, and_mask_TN, fieldT_encodeXY, fieldN_encodeXY]; rfl
theorem xorReg (x y : Reg) : Statement (.xorReg x y) := by
  rw [Statement, Instr.mask, Instr.fixedBits, encode, and_mask_TN, fieldT_encodeXY, fieldN_encodeXY]; rfl
theorem addReg (x y : Reg) : Statement (.addReg x y) := by
  rw [Statement, Instr.mask, Instr.fixedBits, encode, and_mask_TN, fieldT_encodeXY, fieldN_encodeXY]; rfl
theorem sub (x y : Reg) : Statement (.sub x y) := by
  rw [Statement, Instr.mask, Instr.fixedBits, encode, and_mask_TN, fieldT_encodeXY, fieldN_encodeXY]; rfl
theorem shr (x y : Reg) : Statement (.shr x y) := by
  rw [Statement, Instr.mask, Instr.fixedBits, encode, and_mask_TN, fieldT_encodeXY, fieldN_encodeXY]; rfl
theorem subn (x y : Reg) : Statement (.subn x y) := by
  rw [Statement, Instr.mask, Instr.fixedBits, encode, and_mask_TN, fieldT_encodeXY, fieldN_encodeXY]; rfl
theorem shl (x y : Reg) : Statement (.shl x y) := by
  rw [Statement, Instr.mask, Instr.fixedBits, encode, and_mask_TN, fieldT_encodeXY, fieldN_encodeXY]; rfl
theorem sneReg (x y : Reg) : Statement (.sneReg x y) := by
  rw [Statement, Instr.mask, Instr.fixedBits, encode, and_mask_TN, fieldT_encodeXY, fieldN_encodeXY]; rfl
theorem ldI (nnn : Imm12) : Statement (.ldI nnn) := by
  rw [Statement, Instr.mask, Instr.fixedBits, encode, and_mask_T, fieldT_encodeA]; rfl
theorem jpV0 (nnn : Imm12) : Statement (.jpV0 nnn) := by
  rw [Statement, Instr.mask, Instr.fixedBits, encode, and_mask_T, fieldT_encodeA]; rfl
theorem rnd (x : Reg) (nn : Byte) : Statement (.rnd x nn) := by
  rw [Statement, Instr.mask, Instr.fixedBits, encode, and_mask_T, fieldT_encodeXI]; rfl
theorem drw (x y : Reg) (n : Nibble) : Statement (.drw x y n) := by
  rw [Statement, Instr.mask, Instr.fixedBits, encode, and_mask_T, fieldT_encodeXY]; rfl
theorem skp (x : Reg) : Statement (.skp x) := by
  rw [Statement, Instr.mask, Instr.fixedBits, encode, and_mask_TNN, fieldT_encodeXI, fieldNN_encodeXI]; rfl
theorem sknp (x : Reg) : Statement (.sknp x) := by
  rw [Statement, Instr.mask, Instr.fixedBits, encode, and_mask_TNN, fieldT_encodeXI, fieldNN_encodeXI]; rfl
theorem ldVxDT (x : Reg) : Statement (.ldVxDT x) := by
  rw [Statement, Instr.mask, Instr.fixedBits, encode, and_mask_TNN, fieldT_encodeXI, fieldNN_encodeXI]; rfl
theorem ldVxK (x : Reg) : Statement (.ldVxK x) := by
  rw [Statement, Instr.mask, Instr.fixedBits, encode, and_mask_TNN, fieldT_encodeXI, fieldNN_encodeXI]; rfl
theorem ldDTVx (x : Reg) : Statement (.ldDTVx x) := by
  rw [Statement, Instr.mask, Instr.fixedBits, encode, and_mask_TNN, fieldT_encodeXI, fieldNN_encodeXI]; rfl
theorem ldSTVx (x : Reg) : Statement (.ldSTVx x) := by
  rw [Statement, Instr.mask, Instr.fixedBits, encode, and_mask_TNN, fieldT_encodeXI, fieldNN_encodeXI]; rfl
theorem addI (x : Reg) : Statement (.addI x) := by
  rw [Statement, Instr.mask, Instr.fixedBits, encode, and_mask_TNN, fieldT_encodeXI, fieldNN_encodeXI]; rfl
theorem ldF (x : Reg) : Statement (.ldF x) := by
  rw [Statement, Instr.mask, Instr.fixedBits, encode, and_mask_TNN, fieldT_encodeXI, fieldNN_encodeXI]; rfl
theorem ldB (x : Reg) : Statement (.ldB x) := by
  rw [Statement, Instr.mask, Instr.fixedBits, encode, and_mask_TNN, fieldT_encodeXI, fieldNN_encodeXI]; rfl
theorem storeRegs (x : Reg) : Statement (.storeRegs x) := by
  rw [Statement, Instr.mask, Instr.fixedBits, encode, and_mask_TNN, fieldT_encodeXI, fieldNN_encodeXI]; rfl
theorem loadRegs (x : Reg) : Statement (.loadRegs x) := by
  rw [Statement, Instr.mask, Instr.fixedBits, encode, and_mask_TNN, fieldT_encodeXI, fieldNN_encodeXI]; rfl

end Sys2Proof.Laws.MatchesRow
end

