-- ==== Sys2Proof/Tests/Slice0.lean ====
section
/-! SUPPORT. Tests: well-formedness, decoding of words written out from the spec's encodings, one step of each instruction with
the values of spec/95_test_vectors.md (each test names its vector), and, for each obligation with hypotheses, a state and
operands that meet them together. -/
namespace Sys2Proof.Tests

open Sys2Proof Sys2Proof.Machine

/-! ## Well-formedness -/

/-- R100, R103: a `SYS` spelled with the word of `CLS` or of `RET` is ill-formed, its neighbours are not. -/
theorem test_wf_sys : Instr.wf (.sys 0x0E0#12) = false ∧ Instr.wf (.sys 0x0EE#12) = false ∧
    Instr.wf (.sys 0x0E1#12) = true ∧ Instr.wf (.sys 0x000#12) = true := by decide

/-! ## Decoding: every constructor's word, written out from R91 to R100 -/

/-- Exact words and format A: 0x00E0, 0x00EE, 0x0NNN, 0x1NNN, 0x2NNN, 0xANNN, 0xBNNN (T-DE2 to T-DE4, T-DE7). -/
theorem test_decode_control : decodeWord 0x00E0#16 = .ok .cls ∧ decodeWord 0x00EE#16 = .ok .ret ∧
    decodeWord 0x0234#16 = .ok (.sys 0x234#12) ∧ decodeWord 0x10E0#16 = .ok (.jp 0x0E0#12) ∧
    decodeWord 0x220A#16 = .ok (.call 0x20A#12) ∧ decodeWord 0xA300#16 = .ok (.ldI 0x300#12) ∧
    decodeWord 0xB123#16 = .ok (.jpV0 0x123#12) := by decide

/-- The skips: 0x3XNN, 0x4XNN, 0x5XY0, 0x9XY0, 0xEX9E, 0xEXA1. -/
theorem test_decode_skips : decodeWord 0x3A42#16 = .ok (.seImm 10 0x42#8) ∧ decodeWord 0x4A43#16 = .ok (.sneImm 10 0x43#8) ∧
    decodeWord 0x5120#16 = .ok (.seReg 1 2) ∧ decodeWord 0x9340#16 = .ok (.sneReg 3 4) ∧
    decodeWord 0xE59E#16 = .ok (.skp 5) ∧ decodeWord 0xE6A1#16 = .ok (.sknp 6) := by decide

/-- 0x6XNN, 0x7XNN, 0x8XY0 to 0x8XY7, 0x8XYE, 0xCXNN (T-DE5). -/
theorem test_decode_alu : decodeWord 0x6F05#16 = .ok (.ldImm 15 0x05#8) ∧ decodeWord 0x71FF#16 = .ok (.addImm 1 0xFF#8) ∧
    decodeWord 0x8120#16 = .ok (.ldReg 1 2) ∧ decodeWord 0x8121#16 = .ok (.orReg 1 2) ∧
    decodeWord 0x8122#16 = .ok (.andReg 1 2) ∧ decodeWord 0x8123#16 = .ok (.xorReg 1 2) ∧
    decodeWord 0x8124#16 = .ok (.addReg 1 2) ∧ decodeWord 0x8125#16 = .ok (.sub 1 2) ∧
    decodeWord 0x83A6#16 = .ok (.shr 3 10) ∧ decodeWord 0x8127#16 = .ok (.subn 1 2) ∧
    decodeWord 0x83FE#16 = .ok (.shl 3 15) ∧ decodeWord 0xC10F#16 = .ok (.rnd 1 0x0F#8) := by decide

/-- 0xDXYN (T-DE6: height 0 is legal) and the nine 0xFX forms. -/
theorem test_decode_transfer : decodeWord 0xD120#16 = .ok (.drw 1 2 0#4) ∧ decodeWord 0xD34F#16 = .ok (.drw 3 4 0xF#4) ∧
    decodeWord 0xF107#16 = .ok (.ldVxDT 1) ∧ decodeWord 0xF30A#16 = .ok (.ldVxK 3) ∧ decodeWord 0xF015#16 = .ok (.ldDTVx 0) ∧
    decodeWord 0xF418#16 = .ok (.ldSTVx 4) ∧ decodeWord 0xF21E#16 = .ok (.addI 2) ∧ decodeWord 0xF529#16 = .ok (.ldF 5) ∧
    decodeWord 0xF633#16 = .ok (.ldB 6) ∧ decodeWord 0xF755#16 = .ok (.storeRegs 7) ∧ decodeWord 0xFF65#16 = .ok (.loadRegs 15) :=
  by decide

/-- One illegal word of each class of R102 (T-UN1 to T-UN5). -/
theorem test_decode_illegal : [0x5121#16, 0x812F#16, 0x9121#16, 0xE09F#16, 0xF166#16].map decodeWord =
    [.error (.unknownOpcode 0x5121#16), .error (.unknownOpcode 0x812F#16), .error (.unknownOpcode 0x9121#16),
      .error (.unknownOpcode 0xE09F#16), .error (.unknownOpcode 0xF166#16)] := by decide

/-- High byte first, the bytes after the word given back; a list too short; words by the numbering of the table (R64, R90). -/
theorem test_decode_bytes : decode [0x12#8, 0x34#8, 0x56#8] = .ok (.jp 0x234#12, [0x56#8]) ∧
    decode [0x12#8] = .error .truncated ∧ decodeTableWord 16 0x8124 = some (.addReg 1 2) ∧ decodeTableWord 16 0x5121 = none := by
  decide

/-- Words written out from R100 are what the encoder gives. -/
theorem test_encode : encode (.shr 3 10) = 0x83A6#16 ∧ encode (.drw 1 2 0xF#4) = 0xD12F#16 ∧ encode (.jpV0 0x300#12) = 0xB300#16 ∧
    encode (.storeRegs 2) = 0xF255#16 ∧ encode (.seImm 10 0x42#8) = 0x3A42#16 := by decide

/-! ## One step on a small state -/

/-- The state after reset with the word at 0x200. -/
def start (w : Nat) : State := State.reset.withFetchWord 16 w

/-- One sprite byte at 0x300, and `I` there. -/
def with300 (s : State) (a : Byte) : State := { s with mem := s.mem.write 0x300 a, i := 0x300#16 }

/-- The given keys pressed. -/
def press (s : State) (ks : List Nat) : State := { s with keys := Vector.ofFn fun k => decide (k.val ∈ ks) }

/-- A look at the next state a result holds. -/
def lookAt {α : Type} (r : Result) (look : State → α) : Option α :=
  match r with
  | .next t => some (look t)
  | _ => none

/-- A look at the state one step leaves. -/
def after {α : Type} (s : State) (look : State → α) : Option α := lookAt (step s) look

/-- What a look sees, some next state shows. -/
theorem exists_next {α : Type} {r : Result} {look : State → α} {x : α} (h : lookAt r look = some x) :
    ∃ t, r = .next t ∧ look t = x := by
  cases r with
  | next t => exact ⟨t, rfl, Option.some.inj h⟩
  | fault f => cases h
  | refused f => cases h

/-- A fault record: cause, info, address and word. -/
def record (c : Cause) (info pc : Word) (op : Option Word) : Option FaultRecord :=
  some { cause := c, info := info, faultPC := pc, faultOpcode := op }

/-- The numeric codes of the causes (R260). -/
theorem test_codes : [Cause.unknownOpcode, .memoryAccess, .stackOverflow, .stackUnderflow, .keyIndex].map Cause.code =
    [1, 2, 3, 4, 5] := by decide

/-- T-CLS1: the screen is cleared, `DRAW` stays 0. -/
theorem test_cls : after { start 0x00E0 with fb := Vector.replicate 32 (BitVec.allOnes 64) }
    (fun t => (t.fb, t.draw)) = some (Vector.replicate 32 0#64, false) := by decide

/-- T-CF5. -/
theorem test_ret : after { start 0x00EE with sp := 1, stack := State.reset.stack.set 0 0x206#16 }
    (fun t => (t.pc, t.sp, t.stack[0])) = some (0x206#16, 0, 0x206#16) := by decide

/-- T-CF9. -/
theorem test_ret_underflow : after (start 0x00EE) (fun t => (t.pc, t.fault)) =
    some (0x200#16, record .stackUnderflow 0#16 0x200#16 (some 0x00EE#16)) := by decide

/-- T-CF14 and T-TMR9: nothing but the timers' tick. -/
theorem test_sys : after { start 0x0234 with dt := 1#8, st := 1#8 } (fun t => (t.pc, t.dt, t.st, t.pulse)) =
    some (0x202#16, 0#8, 0#8, true) := by decide

/-- T-CF3: a jump to itself. -/
theorem test_jp : after { start 0x1200 with dt := 3#8 } (fun t => (t.pc, t.dt)) = some (0x200#16, 2#8) := by decide

/-- T-CF7: the 16th entry. -/
theorem test_call : after { start 0x2345 with sp := 15 } (fun t => (t.pc, t.sp, t.stack[15])) =
    some (0x345#16, 16, 0x202#16) := by decide

/-- T-CF8. -/
theorem test_call_overflow : after { start 0x2345 with sp := 16 } (fun t => (t.pc, t.sp, t.fault)) =
    some (0x200#16, 16, record .stackOverflow 0#16 0x200#16 (some 0x2345#16)) := by decide

/-- T-CF13: not reduced. -/
theorem test_jpV0 : after ((start 0xBFFF).setReg 0 0xFF#8) (fun t => t.pc) = some 0x10FE#16 := by decide

/-- T-SK1, T-SK2. -/
theorem test_seImm : after ((start 0x3A42).setReg 10 0x42#8) (fun t => t.pc) = some 0x204#16 ∧
    after ((start 0x3A42).setReg 10 0x43#8) (fun t => t.pc) = some 0x202#16 := by decide

/-- T-SK4, T-SK5. -/
theorem test_sneImm : after ((start 0x4A42).setReg 10 0x42#8) (fun t => t.pc) = some 0x202#16 ∧
    after ((start 0x4A42).setReg 10 0x43#8) (fun t => t.pc) = some 0x204#16 := by decide

/-- T-SK6, T-SK7. -/
theorem test_seReg : after (((start 0x5120).setReg 1 9#8).setReg 2 9#8) (fun t => t.pc) = some 0x204#16 ∧
    after (((start 0x5120).setReg 1 9#8).setReg 2 8#8) (fun t => t.pc) = some 0x202#16 := by decide

/-- T-SK9, T-SK10. -/
theorem test_sneReg : after (((start 0x9120).setReg 1 9#8).setReg 2 8#8) (fun t => t.pc) = some 0x204#16 ∧
    after (((start 0x9120).setReg 1 9#8).setReg 2 9#8) (fun t => t.pc) = some 0x202#16 := by decide

/-- T-LD2. -/
theorem test_ldImm : after (start 0x6FFF) (fun t => t.reg 15) = some 0xFF#8 := by decide

/-- T-ADDI1: the carry is lost and `VF` stays. -/
theorem test_addImm : after (((start 0x7001).setReg 0 0xFF#8).setReg 15 1#8) (fun t => (t.reg 0, t.reg 15)) =
    some (0#8, 1#8) := by decide

/-- T-MOV1. -/
theorem test_ldReg : after ((start 0x8120).setReg 2 0xAB#8) (fun t => (t.reg 1, t.reg 2)) = some (0xAB#8, 0xAB#8) := by
  decide

/-- T-OR1: `VF` is not reset. -/
theorem test_orReg : after ((((start 0x8121).setReg 1 0xF0#8).setReg 2 0x0F#8).setReg 15 1#8)
    (fun t => (t.reg 1, t.reg 15)) = some (0xFF#8, 1#8) := by decide

/-- T-AND1. -/
theorem test_andReg : after ((((start 0x8122).setReg 1 0xF3#8).setReg 2 0x3C#8).setReg 15 1#8)
    (fun t => (t.reg 1, t.reg 15)) = some (0x30#8, 1#8) := by decide

/-- T-XOR1. -/
theorem test_xorReg : after ((((start 0x8123).setReg 1 0xFF#8).setReg 2 0x0F#8).setReg 15 1#8)
    (fun t => (t.reg 1, t.reg 15)) = some (0xF0#8, 1#8) := by decide

/-- T-ADD3, T-ADD5: 256 is a carry, 255 is none. -/
theorem test_addReg : after (((start 0x8124).setReg 1 0xFF#8).setReg 2 1#8) (fun t => (t.reg 1, t.reg 15)) = some (0#8, 1#8) ∧
    after (((start 0x8124).setReg 1 0x80#8).setReg 2 0x7F#8) (fun t => (t.reg 1, t.reg 15)) = some (0xFF#8, 0#8) := by
  decide

/-- T-ADD8, T-ADD9: `VF` as the second operand, and as the destination. -/
theorem test_addReg_vf : after (((start 0x81F4).setReg 1 0xFF#8).setReg 15 1#8) (fun t => (t.reg 1, t.reg 15)) = some (0#8, 1#8) ∧
    after (((start 0x8F24).setReg 15 0xF0#8).setReg 2 0x20#8) (fun t => t.reg 15) = some 0x10#8 := by decide

/-- T-SUB1, T-SUB3: a borrow, and equal operands. -/
theorem test_sub : after (((start 0x8125).setReg 1 5#8).setReg 2 7#8) (fun t => (t.reg 1, t.reg 15)) = some (0xFE#8, 0#8) ∧
    after (((start 0x8125).setReg 1 7#8).setReg 2 7#8) (fun t => (t.reg 1, t.reg 15)) = some (0#8, 1#8) := by decide

/-- T-SUB7, T-SUB8. -/
theorem test_sub_vf : after (((start 0x8F25).setReg 15 0x10#8).setReg 2 1#8) (fun t => t.reg 15) = some 0x0F#8 ∧
    after (((start 0x81F5).setReg 1 5#8).setReg 15 3#8) (fun t => (t.reg 1, t.reg 15)) = some (2#8, 1#8) := by decide

/-- T-SHR4, T-SHR5. -/
theorem test_shr : after (((start 0x8126).setReg 1 0xFF#8).setReg 2 0#8) (fun t => (t.reg 1, t.reg 2, t.reg 15)) =
    some (0x7F#8, 0#8, 1#8) ∧ after ((start 0x8F06).setReg 15 5#8) (fun t => t.reg 15) = some 2#8 := by decide

/-- T-SUBN2, T-SUBN4. -/
theorem test_subn : after (((start 0x8127).setReg 1 7#8).setReg 2 5#8) (fun t => (t.reg 1, t.reg 15)) = some (0xFE#8, 0#8) ∧
    after (((start 0x8F27).setReg 15 1#8).setReg 2 0x10#8) (fun t => t.reg 15) = some 0x0F#8 := by decide

/-- T-SHL3, T-SHL4. -/
theorem test_shl : after (((start 0x810E).setReg 1 0x7F#8).setReg 15 1#8) (fun t => (t.reg 1, t.reg 15)) = some (0xFE#8, 0#8) ∧
    after (((start 0x812E).setReg 1 0xC1#8).setReg 2 0#8) (fun t => (t.reg 1, t.reg 2, t.reg 15)) =
      some (0x82#8, 0#8, 1#8) := by decide

/-- T-RND2, T-RND5: the mask 0 gives 0, and a bit outside the mask is 0 whatever byte is drawn. -/
theorem test_rnd : (∀ t, exec (.rnd 1 0#8) State.reset = .next t → t.reg 1 = 0#8 ∧ t.draws = 1) ∧
    ∀ t, exec (.rnd 1 0x0F#8) State.reset = .next t → (t.reg 1).getLsbD 4 = false := by
  constructor <;> intro t h <;> cases h
  · exact ⟨by simp [State.reg, State.setReg], rfl⟩
  · simp [State.reg, State.setReg]

/-- T-IDX2. -/
theorem test_ldI : after { start 0xAFFF with i := 0x1234#16 } (fun t => t.i) = some 0x0FFF#16 := by decide

/-- T-IDX4, T-IDX6: no 12-bit wrap, a 16-bit wrap. -/
theorem test_addI : after ({ start 0xF21E with i := 0x0FFF#16 }.setReg 2 1#8) (fun t => t.i) = some 0x1000#16 ∧
    after ({ start 0xF21E with i := 0xFFFF#16 }.setReg 2 0xFF#8) (fun t => t.i) = some 0x00FE#16 := by decide

/-- T-IDX7, T-IDX8. -/
theorem test_ldF : after ((start 0xF029).setReg 0 0x0A#8) (fun t => t.i) = some 0x32#16 ∧
    after ((start 0xF029).setReg 0 0xFF#8) (fun t => t.i) = some 0x04FB#16 := by decide

/-- T-BCD7: the last legal position. -/
theorem test_ldB : after ({ start 0xF033 with i := 0x0FFD#16 }.setReg 0 0x7B#8) (fun t => t.mem.readBytes 0xFFD 3) =
    some [1#8, 2#8, 3#8] := by decide

/-- T-BCD8, T-BCD10: nothing is stored; the info is the lowest out-of-range address. -/
theorem test_ldB_fault : after ({ start 0xF033 with i := 0x0FFE#16 }.setReg 0 0x7B#8)
      (fun t => (t.mem.readBytes 0xFFE 2, t.fault)) =
        some ([0#8, 0#8], record .memoryAccess 0x1000#16 0x200#16 (some 0xF033#16)) ∧
    after { start 0xF033 with i := 0xFFFF#16 } (fun t => t.fault.map FaultRecord.info) = some (some 0xFFFF#16) := by
  decide

/-- T-MEM1. -/
theorem test_storeRegs : after (((({ start 0xF255 with i := 0x400#16 }.setReg 0 0x11#8).setReg 1 0x22#8).setReg 2 0x33#8).setReg 3
    0x44#8) (fun t => (t.mem.readBytes 0x400 4, t.i)) = some ([0x11#8, 0x22#8, 0x33#8, 0#8], 0x400#16) := by decide

/-- T-MEM6. -/
theorem test_storeRegs_fault : after ({ start 0xF155 with i := 0xFFF#16 }.setReg 0 0x10#8)
    (fun t => (t.mem.read 0xFFF, t.fault.map FaultRecord.info)) = some (0#8, some 0x1000#16) := by decide

/-- T-MEM7: the glyph 0 of the default font. -/
theorem test_loadRegs : after { start 0xF465 with v := Vector.replicate 16 0xEE#8 } (fun t => t.v.toList.take 6) =
    some [0xF0#8, 0x90#8, 0x90#8, 0x90#8, 0xF0#8, 0xEE#8] := by decide

/-- T-MEM10. -/
theorem test_loadRegs_fault : after { start 0xF065 with i := 0x2000#16 } (fun t => (t.pc, t.fault.map FaultRecord.info)) =
    some (0x200#16, some 0x2000#16) := by decide

/-- T-DRW4 and T-DRW8: a row wraps into itself, bit 7 is the left column, a lit pixel turned off sets `VF`. -/
theorem test_drw : after ((with300 (start 0xD011) 0xFF#8).setReg 0 0x3C#8)
      (fun t => (t.fb[0], t.fb[1], t.reg 15, t.draw)) = some (0xF00000000000000F#64, 0#64, 0#8, true) ∧
    after { with300 (start 0xD011) 0xC0#8 with fb := State.reset.fb.set 0 1#64 }
      (fun t => (t.fb[0], t.reg 15)) = some (2#64, 1#8) := by decide

/-- T-DRW12, T-DRW14: height 0 reads nothing; a sprite partly out of range changes nothing. -/
theorem test_drw_edges : after ({ start 0xD010 with i := 0xFFFF#16 }.setReg 15 1#8)
      (fun t => (t.fb == State.reset.fb, t.reg 15, t.draw, t.fault.isNone)) = some (true, 0#8, true, true) ∧
    after ({ start 0xD005 with i := 0x0FFC#16 }.setReg 15 1#8) (fun t => (t.reg 15, t.draw, t.fault)) =
      some (1#8, false, record .memoryAccess 0x1000#16 0x200#16 (some 0xD005#16)) := by decide

/-- T-KEY6, T-KEY7: key 15 is the highest; 16 is not reduced. -/
theorem test_skp : after ((press (start 0xE09E) [15]).setReg 0 0x0F#8) (fun t => t.pc) = some 0x204#16 ∧
    after ((press (start 0xE09E) [0]).setReg 0 0x10#8) (fun t => (t.pc, t.fault)) =
      some (0x200#16, record .keyIndex 0x10#16 0x200#16 (some 0xE09E#16)) := by decide

/-- T-KEY3, T-KEY4. -/
theorem test_sknp : after ((press (start 0xE0A1) [5]).setReg 0 5#8) (fun t => t.pc) = some 0x202#16 ∧
    after ((press (start 0xE0A1) [4]).setReg 0 5#8) (fun t => t.pc) = some 0x204#16 := by decide

/-- T-TMR1: the value before the tick. -/
theorem test_ldVxDT : after { start 0xF307 with dt := 2#8 } (fun t => (t.reg 3, t.dt)) = some (2#8, 1#8) := by decide

/-- T-KEY9, its first and third steps. -/
theorem test_ldVxK : after { start 0xF30A with dt := 5#8, st := 1#8 } (fun t => (t.status, t.pc, t.dt, t.st, t.pulse)) =
      some (.awaitingKey, 0x202#16, 5#8, 1#8, false) ∧
    after (press { start 0 with status := .awaitingKey, pc := 0x202#16, opcode := 0xF30A#16, dt := 5#8, st := 1#8 } [9, 7])
      (fun t => (t.reg 3, t.status, t.pc, t.dt, t.st, t.pulse)) = some (7#8, .running, 0x202#16, 4#8, 0#8, true) := by
  decide

/-- T-KEY10: a key held already ends the wait in the same step. -/
theorem test_ldVxK_held : after (press { start 0xF30A with dt := 5#8 } [0])
    (fun t => (t.reg 3, t.status, t.dt)) = some (0#8, .running, 4#8) := by decide

/-- T-TMR3, T-TMR4. -/
theorem test_ldDTVx : after ((start 0xF015).setReg 0 1#8) (fun t => (t.dt, t.pulse)) = some (0#8, false) ∧
    after ((start 0xF015).setReg 0 0xFF#8) (fun t => t.dt) = some 0xFE#8 := by decide

/-- T-TMR5, T-TMR7. -/
theorem test_ldSTVx : after ((start 0xF018).setReg 0 1#8) (fun t => (t.st, t.pulse)) = some (0#8, true) ∧
    after { start 0xF018 with st := 5#8 } (fun t => (t.st, t.pulse)) = some (0#8, false) := by decide

/-- T-FE1, T-FE3: the last word of memory, and a fetch with its second byte outside. -/
theorem test_fetch_edges : after ({ State.reset with pc := 0xFFE#16 }.withFetchWord 16 0x6007)
      (fun t => (t.opcode, t.reg 0, t.pc)) = some (0x6007#16, 7#8, 0x1000#16) ∧
    after { State.reset with pc := 0xFFF#16 } (fun t => (t.pc, t.opcode, t.fault)) =
      some (0xFFF#16, 0#16, record .memoryAccess 0x1000#16 0xFFF#16 none) := by decide

/-- T-TMR10: an illegal word faults, with no tick. -/
theorem test_illegal : after { start 0xFFFF with dt := 5#8, st := 1#8 } (fun t => (t.opcode, t.dt, t.st, t.pulse, t.fault)) =
    some (0#16, 5#8, 1#8, false, record .unknownOpcode 0xFFFF#16 0x200#16 (some 0xFFFF#16)) := by decide

/-- T-LOAD1, T-LOAD4: a second load leaves the stale tail. -/
theorem test_load : (match State.reset.load [0x11#8, 0x22#8, 0x33#8, 0x44#8] with
    | .ok s => (match s.load [0xAA#8] with | .ok t => t.mem.readBytes 0x200 5 | .error _ => [])
    | .error _ => []) = [0xAA#8, 0x22#8, 0x33#8, 0x44#8, 0#8] := by decide

/-! ## Witnesses: for each obligation with hypotheses, a state and operands that meet them together -/

/-- `DecodeInvertsEncode`: the largest `SYS`, and a draw. -/
theorem witness_DecodeInvertsEncode : Instr.wf (.sys 0xFFF#12) = true ∧ Instr.wf (.drw 15 0 0xF#4) = true := by decide

/-- `EncodeInvertsDecode`. -/
theorem witness_EncodeInvertsDecode : decodeWord 0xFF65#16 = .ok (.loadRegs 15) := by decide

/-- `DecodeFindsTheMatchingRow`: both clauses, the second at the neighbour of an exact word and at the exact word. -/
theorem witness_DecodeFindsTheMatchingRow : decodeWord 0x00E1#16 = .ok (.sys 0x0E1#12) ∧
    0x00E1#16 &&& Instr.mask (.sys 0#12) = Instr.fixedBits (.sys 0#12) ∧ 0x00E1#16 ≠ 0x00E0#16 ∧ 0x00E1#16 ≠ 0x00EE#16 ∧
    0x00E0#16 &&& Instr.mask .cls = Instr.fixedBits .cls ∧ Instr.fixedBits .cls ≠ 0x0000#16 := by decide

/-- `IllegalWordsRaiseUnknownOpcode`: words of the five classes, the last one fetched. -/
theorem witness_IllegalWordsRaiseUnknownOpcode : IllegalWord 0x5121#16 ∧ IllegalWord 0x812F#16 ∧ IllegalWord 0x912F#16 ∧
    IllegalWord 0xE09F#16 ∧ IllegalWord 0xFFFF#16 ∧ (start 0xFFFF).status = .running ∧ (start 0xFFFF).fetch = .ok 0xFFFF#16 := by
  refine ⟨?_, ?_, ?_, ?_, ?_, by decide⟩ <;> (unfold IllegalWord; decide)

/-- `StepRunsTheDecodedInstruction`: the highest `PC` with a word. -/
theorem witness_StepRunsTheDecodedInstruction :
    let s := { State.reset with pc := 0xFFE#16 }.withFetchWord 16 0x2ABC
    s.status = .running ∧ s.pc.toNat ≤ 4094 ∧
      decode [s.mem.read s.pc.toNat, s.mem.read (s.pc.toNat + 1)] = .ok (.call 0xABC#12, []) := by decide

/-- `FetchIsBigEndianAndBounded`: both clauses at the boundary, the first with a step that does not fault. -/
theorem witness_FetchIsBigEndianAndBounded :
    (let s := { State.reset with pc := 4094#16 };
      s.status = .running ∧ s.pc.toNat ≤ 4094 ∧ ∃ t, step s = .next t ∧ t.status = .running) ∧
    (let s := { State.reset with pc := 4095#16 };
      s.status = .running ∧ 4094 < s.pc.toNat) :=
  ⟨⟨by decide, by decide, exists_next (by decide : after { State.reset with pc := 4094#16 } State.status = some .running)⟩,
    by decide, by decide⟩

/-- `StepLeavesPcWhereTheInstructionSays`: a taken skip, and a RET from a full stack. -/
theorem witness_StepLeavesPcWhereTheInstructionSays :
    ((start 0x3000).status = .running ∧ (start 0x3000).fetch = .ok 0x3000#16 ∧ decodeWord 0x3000#16 = .ok (.seImm 0 0#8) ∧
      ∃ t, step (start 0x3000) = .next t ∧ t.status = .running) ∧
    (let s := { start 0x00EE with sp := 16 };
      s.status = .running ∧ s.fetch = .ok 0x00EE#16 ∧ decodeWord 0x00EE#16 = .ok .ret ∧
        ∃ t, step s = .next t ∧ t.status = .running) :=
  ⟨⟨by decide, by decide, by decide,
      exists_next (by decide : after (start 0x3000) State.status = some .running)⟩,
    by decide, by decide, by decide,
      exists_next (by decide : after { start 0x00EE with sp := 16 } State.status = some .running)⟩

/-- `StepWritesOnlyItsState`: a store of registers. -/
theorem witness_StepWritesOnlyItsState :
    let s := { start 0xFF55 with i := 0xFF0#16 }
    s.status = .running ∧ s.fetch = .ok 0xFF55#16 ∧ decodeWord 0xFF55#16 = .ok (.storeRegs 15) ∧
      ∃ t, step s = .next t ∧ t.status = .running :=
  ⟨by decide, by decide, by decide,
    exists_next (by decide : after { start 0xFF55 with i := 0xFF0#16 } State.status = some .running)⟩

/-- `FaultsArePrecise`: a fault of the fetch, and one of an instruction. -/
theorem witness_FaultsArePrecise :
    (∃ t, step { State.reset with pc := 4095#16 } = .next t ∧ t.status = .faulted) ∧
    ∃ t, step (start 0x00EE) = .next t ∧ t.status = .faulted :=
  ⟨exists_next (by decide : after { State.reset with pc := 4095#16 } State.status = some .faulted),
    exists_next (by decide : after (start 0x00EE) State.status = some .faulted)⟩

/-- `FaultedIsTerminal`. -/
theorem witness_FaultedIsTerminal : { State.reset with status := .faulted }.status = .faulted := rfl

/-- `AwaitingKeyStep`: key 15 alone, keys 0 and 15, and no key. -/
theorem witness_AwaitingKeyStep :
    let w := { State.reset with status := .awaitingKey, opcode := 0xFF0A#16 }
    w.status = .awaitingKey ∧ ((press w [15]).keys[15] = true ∧ ∀ j : Reg, j < 15 → (press w [15]).keys[j.val] = false) ∧
      ((press w [15, 0]).keys[0] = true ∧ ∀ j : Reg, j < 0 → (press w [15, 0]).keys[j.val] = false) ∧
      ∀ k : Reg, w.keys[k.val] = false := by decide

/-- `ExecWritesOnlyItsState`: the last legal address of a BCD store. -/
theorem witness_ExecWritesOnlyItsState :
    Instr.faultOf (.ldB 0) { State.reset with i := 4093#16 } = none ∧
      ∃ t, exec (.ldB 0) { State.reset with i := 4093#16 } = .next t ∧ t.status = .running :=
  ⟨by decide, exists_next (by decide : lookAt (exec (.ldB 0) { State.reset with i := 4093#16 }) State.status = some .running)⟩

/-- The invariant holds of a state with a full stack of the greatest return addresses, at the greatest `PC`. -/
theorem witness_Inv : State.Inv { State.reset with sp := 16, stack := Vector.replicate 16 4096#16, pc := 0x10FE#16 } where
  memWf := rfl
  pcBound := by decide
  stackBound := by decide
  awaitingOpcode := by decide
  faultRecord := by simp [State.faultConsistent, State.reset]

/-- `StepKeepsInvariant`: a CALL from such a state with room for one more entry. -/
theorem witness_StepKeepsInvariant : ∃ s t : State, s.Inv ∧ step s = .next t ∧ t.status = .running ∧ t.sp.val = 16 := by
  refine ⟨{ start 0x2FFF with sp := 15, stack := Vector.replicate 16 4096#16 }, ?_⟩
  obtain ⟨t, h, e⟩ := exists_next (look := fun t => (t.status, t.sp.val)) (x := (.running, 16))
    (by decide : after { start 0x2FFF with sp := 15, stack := Vector.replicate 16 4096#16 }
      (fun t => (t.status, t.sp.val)) = some (.running, 16))
  cases e' : (t.status, t.sp.val)
  refine ⟨t, ⟨by decide, by decide, by decide, by decide, ?_⟩, h, ?_, ?_⟩
  · have : (start 0x2FFF).fault = none := by decide
    simp [State.faultConsistent, this]; decide
  · exact congrArg Prod.fst e
  · exact congrArg Prod.snd e

/-- `HostOperationsKeepInvariant`: a load. -/
theorem witness_HostOperationsKeepInvariant : HostOp.load [0xAA#8] ≠ .step ∧ State.reset.Inv ∧
    ∃ t, hostAct (.load [0xAA#8]) State.reset = .next t ∧ t.mem.read 512 = 0xAA#8 :=
  ⟨by decide, ⟨rfl, by decide, by decide, by decide, by simp [State.faultConsistent, State.reset]⟩,
    exists_next (by decide : lookAt (hostAct (.load [0xAA#8]) State.reset) (fun t => t.mem.read 512) = some 0xAA#8)⟩

/-- `CompletedStepsTickTheTimersOnce`: with both timers at 1. -/
theorem witness_CompletedStepsTickTheTimersOnce :
    let s := { start 0x0000 with dt := 1#8, st := 1#8 }
    s.status = .running ∧ s.fetch = .ok 0x0000#16 ∧ decodeWord 0x0000#16 = .ok (.sys 0#12) ∧
      ∃ u, exec (.sys 0#12) (s.beginExecute 0x0000#16) = .next u ∧ u.status = .running :=
  ⟨by decide, by decide, by decide, exists_next
    (by decide : lookAt (exec (.sys 0#12) ({ start 0x0000 with dt := 1#8, st := 1#8 }.beginExecute 0x0000#16))
      State.status = some .running)⟩

/-- `NoTickWithoutCompletion`: a step that starts a wait, and one that faults. -/
theorem witness_NoTickWithoutCompletion :
    (∃ t, step (start 0xF00A) = .next t ∧ t.status = .awaitingKey) ∧ ∃ t, step (start 0xFFFF) = .next t ∧ t.status = .faulted :=
  ⟨exists_next (by decide : after (start 0xF00A) State.status = some .awaitingKey),
    exists_next (by decide : after (start 0xFFFF) State.status = some .faulted)⟩

/-- `TimerMoves`: each of the three words fetched. -/
theorem witness_TimerMoves : ((start 0xFF07).status = .running ∧ (start 0xFF07).fetch = .ok 0xFF07#16 ∧
      decodeWord 0xFF07#16 = .ok (.ldVxDT 15)) ∧
    ((start 0xF015).status = .running ∧ (start 0xF015).fetch = .ok 0xF015#16 ∧ decodeWord 0xF015#16 = .ok (.ldDTVx 0)) ∧
    (start 0xF018).status = .running ∧ (start 0xF018).fetch = .ok 0xF018#16 ∧ decodeWord 0xF018#16 = .ok (.ldSTVx 0) := by
  decide

/-- `MemoryPrimitivesCheckTheWholeRange`: each clause at the edge of the address space. -/
theorem witness_MemoryPrimitivesCheckTheWholeRange :
    (∀ k, k < 2 → 4094 + k ≤ 4095) ∧
    (4094 ≤ 4096 ∧ 4096 < 4094 + 3 ∧ 4095 < 4096 ∧ ∀ c, 4094 ≤ c → c < 4096 → c ≤ 4095) ∧
    (Memory.wf [] = true ∧ ∀ k, k < [1#8, 2#8].length → 4094 + k ≤ 4095) ∧
    (65535 ≤ 65535 ∧ 65535 < 65535 + [1#8].length ∧ 4095 < 65535 ∧ ∀ c, 65535 ≤ c → c < 65535 → c ≤ 4095) := by
  refine ⟨by omega, ⟨by omega, by omega, by omega, by omega⟩, ⟨rfl, by simp; omega⟩, by omega, by simp, by omega, by omega⟩

/-- `CanonicalMemoriesReadingAlikeAreEqual`: two ways to the same contents. -/
theorem witness_CanonicalMemoriesReadingAlikeAreEqual : Memory.wf (Memory.write (Memory.write [] 600 1#8) 600 0#8) = true ∧
    Memory.wf [] = true ∧ ∀ a, (Memory.write (Memory.write [] 600 1#8) 600 0#8).read a = Memory.read [] a := by
  have h : Memory.write (Memory.write [] 600 1#8) 600 0#8 = [] := by decide
  rw [h]; exact ⟨rfl, rfl, fun _ => rfl⟩

/-- `StoredBytesAreFetchedNext`. -/
theorem witness_StoredBytesAreFetchedNext :
    let s := { start 0xF155 with i := 0x202#16 }
    s.status = .running ∧ s.mem.wf = true ∧ s.fetch = .ok 0xF155#16 ∧ decodeWord 0xF155#16 = .ok (.storeRegs 1) ∧
      1 ≤ (1 : Reg).val ∧ s.i = s.pc + 2#16 ∧ s.i.toNat + (1 : Reg).val ≤ 4095 := by decide

/-- `ReturnPopsThePc`: one entry, all 16, none; and a RET fetched with an empty stack. -/
theorem witness_ReturnPopsThePc : 0 < { State.reset with sp := 1 }.sp.val ∧ 0 < { State.reset with sp := 16 }.sp.val ∧
    State.reset.sp.val = 0 ∧ (start 0x00EE).status = .running ∧ (start 0x00EE).fetch = .ok 0x00EE#16 ∧
    decodeWord 0x00EE#16 = .ok .ret ∧ (start 0x00EE).sp.val = 0 := by decide

/-- `CallPushesTheReturnAddress`: an empty stack, 15 entries, 16; and a CALL fetched with a full stack. -/
theorem witness_CallPushesTheReturnAddress : State.reset.sp.val < 16 ∧ { State.reset with sp := 15 }.sp.val < 16 ∧
    { State.reset with sp := 16 }.sp.val = 16 ∧
    (let s := { start 0x2FFF with sp := 16 };
      s.status = .running ∧ s.fetch = .ok 0x2FFF#16 ∧ decodeWord 0x2FFF#16 = .ok (.call 0xFFF#12) ∧ s.sp.val = 16) := by
  decide

/-- `CallThenReturnComesBack`: the state the CALL itself left, with 15 entries before it. -/
theorem witness_CallThenReturnComesBack : ∃ s t u : State, s.sp.val < 16 ∧ exec (.call 0x300#12) s = .next t ∧ u.sp = t.sp ∧
    ∀ k : Fin 16, k.val = s.sp.val → u.stack[k.val] = t.stack[k.val] := by
  obtain ⟨t, h, _⟩ := exists_next
    (by decide : lookAt (exec (.call 0x300#12) { State.reset with sp := 15 }) State.status = some .running)
  exact ⟨{ State.reset with sp := 15 }, t, t, by decide, h, rfl, fun _ _ => rfl⟩

/-- `SysDoesNothing`: the largest word of the clause. -/
theorem witness_SysDoesNothing : (0x0FFF#16).toNat < 0x1000 ∧ 0x0FFF#16 ≠ 0x00E0#16 ∧ 0x0FFF#16 ≠ 0x00EE#16 := by decide

/-- `JumpToSelfOnlyRunsTheTimersDown`. -/
theorem witness_JumpToSelfOnlyRunsTheTimersDown : (start 0x1200).status = .running ∧ (start 0x1200).fetch = .ok 0x1200#16 ∧
    decodeWord 0x1200#16 = .ok (.jp 0x200#12) ∧ (start 0x1200).pc.toNat = (0x200#12).toNat := by decide

/-- `KeySkips`: the key numbers 0 and 15, and 16. -/
theorem witness_KeySkips : (State.reset.reg 0).toNat = (0 : Reg).val ∧
    ((State.reset.setReg 0 0x0F#8).reg 0).toNat = (15 : Reg).val ∧ 15 < ((State.reset.setReg 0 0x10#8).reg 0).toNat := by
  decide

/-- `DecimalDigitsAreStored`: the last legal position. -/
theorem witness_DecimalDigitsAreStored :
    let s := { State.reset with i := 4093#16 }
    s.mem.wf = true ∧ s.i.toNat + 2 ≤ 4095 := by decide

/-- `RegistersAreStored`: one register at the last address, and 16 at the last legal position. -/
theorem witness_RegistersAreStored :
    { State.reset with i := 4095#16 }.mem.wf = true ∧ { State.reset with i := 4095#16 }.i.toNat + (0 : Reg).val ≤ 4095 ∧
      { State.reset with i := 4080#16 }.i.toNat + (15 : Reg).val ≤ 4095 := by decide

/-- `RegistersAreLoaded`: 16 registers from the last legal position. -/
theorem witness_RegistersAreLoaded : { State.reset with i := 4080#16 }.i.toNat + (15 : Reg).val ≤ 4095 := by decide

/-- `StoreThenLoadRestoresRegisters`: the state the store itself left. -/
theorem witness_StoreThenLoadRestoresRegisters : ∃ s t u : State, s.mem.wf = true ∧ s.i.toNat + (15 : Reg).val ≤ 4095 ∧
    exec (.storeRegs 15) s = .next t ∧ u.i = s.i ∧ u.mem = t.mem := by
  obtain ⟨t, h, e⟩ := exists_next
    (by decide : lookAt (exec (.storeRegs 15) { State.reset with i := 4080#16 }) State.i = some 4080#16)
  exact ⟨{ State.reset with i := 4080#16 }, t, t, by decide, by decide, h, e, rfl⟩

/-- `DrawInvertsTheCoveredCells`: height 0 with `I` past memory, and a sprite that ends at the last byte. -/
theorem witness_DrawInvertsTheCoveredCells :
    ((0#4).toNat = 0 ∨ { State.reset with i := 0xFFFF#16 }.i.toNat + (0#4).toNat ≤ 4096) ∧
    ((15#4).toNat = 0 ∨ { State.reset with i := 4081#16 }.i.toNat + (15#4).toNat ≤ 4096) := by decide

/-- `DrawingTwiceRestoresTheScreen`. -/
theorem witness_DrawingTwiceRestoresTheScreen : (0 : Reg) ≠ 15 ∧ (1 : Reg) ≠ 15 ∧
    ((5#4).toNat = 0 ∨ State.reset.i.toNat + (5#4).toNat ≤ 4096) ∧
    ∃ t, exec (.drw 0 1 5#4) State.reset = .next t ∧ t.draw = true :=
  ⟨by decide, by decide, by decide,
    exists_next (by decide : lookAt (exec (.drw 0 1 5#4) State.reset) State.draw = some true)⟩

/-- `DrawCoordinatesWrap`: two sprite bits of one cell, and two states whose coordinates differ by 64 and by 32. -/
theorem witness_DrawCoordinatesWrap :
    (7 < 8 ∧ 14 < 15 ∧ pixelAt (255 + 7) (255 + 14) = pixelAt (255 + 7) (255 + 14)) ∧
    (let s := (State.reset.setReg 0 62#8).setReg 1 30#8
      let s' := (State.reset.setReg 0 126#8).setReg 1 62#8
      s'.i = s.i ∧ s'.mem = s.mem ∧ s'.fb = s.fb ∧ (s'.reg 0).toNat % 64 = (s.reg 0).toNat % 64 ∧
        (s'.reg 1).toNat % 32 = (s.reg 1).toNat % 32 ∧ s.i.toNat + (5#4).toNat ≤ 4096 ∧
        (∃ t, exec (.drw 0 1 5#4) s = .next t ∧ t.draw = true) ∧ ∃ t', exec (.drw 0 1 5#4) s' = .next t' ∧ t'.draw = true) :=
  ⟨⟨by decide, by decide, rfl⟩, by decide, by decide, by decide, by decide, by decide,
    by decide,
    exists_next (by decide : lookAt (exec (.drw 0 1 5#4) ((State.reset.setReg 0 62#8).setReg 1 30#8)) State.draw = some true),
    exists_next
      (by decide : lookAt (exec (.drw 0 1 5#4) ((State.reset.setReg 0 126#8).setReg 1 62#8)) State.draw = some true)⟩

/-- `OnlyDrawSetsTheDrawFlag`: a step that sets it. -/
theorem witness_OnlyDrawSetsTheDrawFlag : ∃ t, step (start 0xD000) = .next t ∧ t.draw ≠ (start 0xD000).draw := by
  obtain ⟨t, h, e⟩ := exists_next (by decide : after (start 0xD000) State.draw = some true)
  exact ⟨t, h, by rw [e]; decide⟩

/-- `WaitForKeyTakesTheLowestOrWaits`: key 15 alone, and no key. -/
theorem witness_WaitForKeyTakesTheLowestOrWaits :
    ((press State.reset [15]).keys[15] = true ∧ ∀ j : Reg, j < 15 → (press State.reset [15]).keys[j.val] = false) ∧
    ∀ k : Reg, State.reset.keys[k.val] = false := by decide

/-- `LoadCopiesTheImage`: no byte, and the longest image. -/
theorem witness_LoadCopiesTheImage : State.reset.mem.wf = true ∧ ([] : List Byte).length ≤ 3584 ∧
    (List.replicate 3584 0xAB#8).length ≤ 3584 :=
  ⟨rfl, Nat.zero_le _, by rw [List.length_replicate]⟩

/-- `OversizedImageIsRejected`: one byte too many. -/
theorem witness_OversizedImageIsRejected : 3584 < (List.replicate 3585 0xAB#8).length := by
  rw [List.length_replicate]; decide

end Sys2Proof.Tests
end

section
/-! PROOF. What the execute phase can do to the pieces of state the step cycle reads (spec rules R124 to R126, R133), and the
obligations about the step cycle that follow from it. -/
namespace Sys2Proof.Machine

/-! ## How the execute phase ends (R124, R126) -/

/-- How the execute phase of `i` from `s` can end, as far as the step around it is concerned. -/
inductive ExecEnd (i : Instr) (s t : State) : Prop where
  /-- The instruction is done: it left the step cycle's own pieces of state alone. -/
  | completes (status : t.status = s.status) (fault : t.fault = s.fault) (opcode : t.opcode = s.opcode)
      (pulse : t.pulse = s.pulse)
  /-- An LD Vx, K that found no key pressed starts the wait, and does nothing else (R246). -/
  | waits (x : Reg) (instr : i = .ldVxK x) (noKey : KeyLatch.first s.keys = none)
      (state : t = { s with status := .awaitingKey })
  /-- The instruction raised a fault (R271). -/
  | raises (c : Cause) (info : Word) (raised : Raised s t c info)

/-- An instruction whose frame leaves out the step cycle's own pieces of state completes. -/
theorem ExecEnd.of_frame {i : Instr} {s t : State} {changed : List Part} (h : Frame changed s t)
    (hc : ∀ p ∈ [Part.status, .fault, .opcode, .pulse], p ∉ changed) : ExecEnd i s t :=
  .completes (h .status (hc _ (by decide))) (h .fault (hc _ (by decide))) (h .opcode (hc _ (by decide)))
    (h .pulse (hc _ (by decide)))

/-- A raise ends the execute phase with a fault. -/
theorem raise_execEnd (i : Instr) (s : State) (c : Cause) (info : Word) :
    ∃ t, s.raise c info = .next t ∧ ExecEnd i s t :=
  let ⟨t, e, h⟩ := s.raise_raised c info
  ⟨t, e, .raises c info h⟩

/-- A skip completes, taken or not. -/
theorem skipIf_execEnd (i : Instr) (c : Bool) (s : State) : ∃ t, skipIf c s = .next t ∧ ExecEnd i s t :=
  let ⟨t, e, _, h⟩ := skipIf_next c s
  ⟨t, e, .of_frame h (by decide)⟩

/-- A store at `I` completes or raises. -/
theorem storeAtI_execEnd (i : Instr) (s : State) (xs : List Byte) : ∃ t, storeAtI s xs = .next t ∧ ExecEnd i s t := by
  rcases storeAtI_cases s xs with ⟨_, e⟩ | ⟨_, _, e⟩
  · exact ⟨_, e, .of_frame (s.mem_frame _) (by decide)⟩
  · exact e ▸ raise_execEnd i s _ _

theorem execRet_execEnd (s : State) : ∃ t, execRet s = .next t ∧ ExecEnd .ret s t := by
  unfold execRet
  rcases s.popped_cases with ⟨_, e⟩ | ⟨_, e⟩ <;> rw [e]
  · exact ⟨_, rfl, .completes rfl rfl rfl rfl⟩
  · exact raise_execEnd _ s _ _

theorem execCall_execEnd (nnn : Imm12) (s : State) : ∃ t, execCall nnn s = .next t ∧ ExecEnd (.call nnn) s t := by
  unfold execCall
  rcases s.pushed_cases s.pc with ⟨_, e⟩ | ⟨_, e⟩ <;> rw [e]
  · exact ⟨_, rfl, .completes rfl rfl rfl rfl⟩
  · exact raise_execEnd _ s _ _

theorem execSkp_execEnd (x : Reg) (s : State) : ∃ t, execSkp x s = .next t ∧ ExecEnd (.skp x) s t := by
  unfold execSkp
  cases keyOf (s.reg x) with
  | some k => exact skipIf_execEnd _ _ s
  | none => exact raise_execEnd _ s _ _

theorem execSknp_execEnd (x : Reg) (s : State) : ∃ t, execSknp x s = .next t ∧ ExecEnd (.sknp x) s t := by
  unfold execSknp
  cases keyOf (s.reg x) with
  | some k => exact skipIf_execEnd _ _ s
  | none => exact raise_execEnd _ s _ _

theorem execLdVxK_execEnd (x : Reg) (s : State) : ∃ t, execLdVxK x s = .next t ∧ ExecEnd (.ldVxK x) s t := by
  unfold execLdVxK
  cases hk : KeyLatch.first s.keys with
  | some k => exact ⟨_, rfl, .completes rfl rfl rfl rfl⟩
  | none => exact ⟨_, rfl, .waits x rfl hk rfl⟩

theorem execDrw_execEnd (x y : Reg) (n : Nibble) (s : State) :
    ∃ t, execDrw x y n s = .next t ∧ ExecEnd (.drw x y n) s t := by
  rcases execDrw_cases x y n s with ⟨_, t, e, _, _, _, _, hframe⟩ | ⟨_, _, t, e, hraised⟩
  · exact ⟨t, e, .of_frame hframe (by decide)⟩
  · exact ⟨t, e, .raises _ _ hraised⟩

theorem execLoadRegs_execEnd (x : Reg) (s : State) : ∃ t, execLoadRegs x s = .next t ∧ ExecEnd (.loadRegs x) s t := by
  unfold execLoadRegs
  rcases s.mem.memRead_cases (s.ea 0) (x.val + 1) with ⟨_, e⟩ | ⟨_, _, e⟩ <;> rw [e]
  · exact ⟨_, rfl, .completes rfl rfl rfl rfl⟩
  · exact raise_execEnd _ s _ _

/-- Every instruction answers a next state, and completes, starts a key wait or raises a fault (R124, R126). -/
theorem exec_execEnd (i : Instr) (s : State) : ∃ t, exec i s = .next t ∧ ExecEnd i s t :=
  match i with
  | .ret => execRet_execEnd s
  | .call nnn => execCall_execEnd nnn s
  | .seImm _ _ | .sneImm _ _ | .seReg _ _ | .sneReg _ _ => skipIf_execEnd _ _ s
  | .skp x => execSkp_execEnd x s
  | .sknp x => execSknp_execEnd x s
  | .ldVxK x => execLdVxK_execEnd x s
  | .drw x y n => execDrw_execEnd x y n s
  | .ldB _ | .storeRegs _ => storeAtI_execEnd _ s _
  | .loadRegs x => execLoadRegs_execEnd x s
  | .cls | .sys _ | .jp _ | .jpV0 _ | .ldImm _ _ | .addImm _ _ | .ldReg _ _ | .orReg _ _ | .andReg _ _ | .xorReg _ _
  | .addReg _ _ | .sub _ _ | .shr _ _ | .subn _ _ | .shl _ _ | .ldI _ | .addI _ | .ldF _ | .rnd _ _ | .ldVxDT _
  | .ldDTVx _ | .ldSTVx _ => ⟨_, rfl, .completes rfl rfl rfl rfl⟩

/-- Whatever state an instruction answers, the execute phase ended in one of the three ways. -/
theorem execEnd_of_exec {i : Instr} {s t : State} (h : exec i s = .next t) : ExecEnd i s t := by
  obtain ⟨t', h', hend⟩ := exec_execEnd i s
  rw [h, next_inj] at h'
  exact h' ▸ hend

/-- No instruction writes `OPCODE` (R37). -/
theorem exec_opcode {i : Instr} {s t : State} (h : exec i s = .next t) : t.opcode = s.opcode := by
  cases execEnd_of_exec h with
  | completes _ _ hopcode _ => exact hopcode
  | waits _ _ _ ht => rw [ht]
  | raises _ _ hraised =>
    obtain ⟨_, _, hframe⟩ := hraised
    exact hframe .opcode (by decide)

/-! ## The step around it -/

/-- A step answers a next state from every state (R120, R126). -/
theorem step_next (s : State) : ∃ t, step s = .next t := by
  unfold step
  cases s.status with
  | faulted => exact ⟨_, rfl⟩
  | awaitingKey => exact ⟨_, rfl⟩
  | running =>
    cases s.fetch with
    | error a => exact ⟨_, rfl⟩
    | ok op =>
      cases hd : decodeWord op with
      | error e => simp only [hd]; exact ⟨_, rfl⟩
      | ok i =>
        obtain ⟨u, hu, _⟩ := exec_execEnd i (s.beginExecute op)
        simp only [hd, hu]
        exact ⟨_, rfl⟩

/-- A fetch above 4094 faults the step, at the lowest out-of-range address (R121). -/
theorem step_of_pc_gt {s : State} (hs : s.status = .running) (hpc : 4094 < s.pc.toNat) :
    step s = .next (s.fetchFault (max s.pc.toNat 4096)) := by
  rcases s.fetch_cases with ⟨h, _⟩ | ⟨_, hf⟩
  · omega
  · simp only [step, hs, hf]

/-- Ending a step keeps the `OPCODE` the execute phase left, unless it left a fault (R125). -/
theorem State.endStep_opcode {s u : State} (h : (s.endStep u).status ≠ .faulted) : (s.endStep u).opcode = u.opcode := by
  rcases s.endStep_cases u with ⟨_, e⟩ | ⟨_, e⟩ | ⟨hu, e⟩
  · rw [e, State.tick_opcode]
  · rw [e]
  · rw [e] at h; exact absurd hu h

/-- After a step from `Running` that does not fault `OPCODE` holds the word fetched (R121, R122). -/
theorem step_opcode {s t : State} {op : Word} (hs : s.status = .running) (hf : s.fetch = .ok op)
    (h : step s = .next t) (ht : t.status ≠ .faulted) : t.opcode = op := by
  rcases step_cases h with ⟨hs', _⟩ | ⟨hs', _⟩ | ⟨_, _, rfl⟩ | ⟨_, _, _, _, rfl⟩ | ⟨_, op', i, u, hf', _, hu, rfl⟩
  · cases hs.symm.trans hs'
  · cases hs.symm.trans hs'
  · exact absurd rfl ht
  · exact absurd rfl ht
  · cases hf.symm.trans hf'
    rw [State.endStep_opcode ht, exec_opcode hu, State.beginExecute_opcode]

/-! ## The four outcomes (R126) -/

/-- The step from `s` to `t` completed: it ticked what an instruction, or the end of a key wait, left. -/
def StepCompleted (s t : State) : Prop :=
  s.status ≠ .faulted ∧ t.status = .running ∧ ∃ u : State, t = u.tick ∧ u.pulse = false ∧
    ((s.status = .running ∧ ∃ op i, s.fetch = .ok op ∧ decodeWord op = .ok i ∧ exec i (s.beginExecute op) = .next u) ∨
     (s.status = .awaitingKey ∧ Frame [.v, .status, .pulse] s u))

/-- The step from `s` to `t` is waiting for a key. -/
def StepWaiting (s t : State) : Prop :=
  s.status ≠ .faulted ∧ t.status = .awaitingKey ∧ t.dt = s.dt ∧ t.st = s.st ∧ t.pulse = false ∧
    (∀ k : Reg, s.keys[k.val] = false) ∧
    (s.status = .awaitingKey ∨ ∃ op x, s.fetch = .ok op ∧ decodeWord op = .ok (.ldVxK x))

/-- The step from `s` to `t` faulted. -/
def StepFaulted (s t : State) : Prop :=
  s.status ≠ .faulted ∧ t.status = .faulted ∧ t.fault.isSome = true ∧ t.pulse = false ∧
    Frame [.status, .fault, .pulse] s t

/-- The step from `s` to `t` was made in a dead machine. -/
def StepDead (s t : State) : Prop := s.status = .faulted ∧ t.pulse = false ∧ Frame [.pulse] s t

/-- Clearing the pulse changes the pulse alone (R133). -/
theorem State.noPulse_frame (s : State) : Frame [.pulse] s s.noPulse := by
  intro p hp
  cases p <;> simp_all [Part.same]

/-- Taking any fault in a state with its pulse cleared is a faulted step from that state (R271). -/
theorem StepFaulted.of_takeFault {s : State} (hs : s.status ≠ .faulted) (c : Cause) (info pc : Word) (op : Option Word) :
    StepFaulted s (s.noPulse.takeFault c info pc op) :=
  ⟨hs, rfl, rfl, rfl, (s.noPulse_frame.trans (s.noPulse.takeFault_frame c info pc op)).weaken (by decide)⟩

/-- When the execute phase raised, the end of the step is that fault taken in the state the step began in (R133, R271). -/
theorem State.endStep_of_raised {s s' u : State} {c : Cause} {info : Word} (h : Raised s' u c info) :
    s.endStep u = s.noPulse.takeFault c info (s'.pc - 2#16) (some s'.opcode) := by
  obtain ⟨hstatus, hfault, _⟩ := h
  simp only [State.endStep, hstatus, hfault, State.takeFault]

/-- A step that reaches its execute phase completes, waits or faults, as the execute phase ended. -/
theorem endStep_outcome {s u : State} {op : Word} {i : Instr} (hs : s.status = .running) (hf : s.fetch = .ok op)
    (hd : decodeWord op = .ok i) (hu : exec i (s.beginExecute op) = .next u) :
    StepCompleted s (s.endStep u) ∨ StepWaiting s (s.endStep u) ∨ StepFaulted s (s.endStep u) := by
  have hnf : s.status ≠ .faulted := by simp [hs]
  cases execEnd_of_exec hu with
  | completes hstatus _ _ hpulse =>
    have hrun : u.status = .running := hstatus.trans hs
    have he : s.endStep u = u.tick := by simp only [State.endStep, hrun]
    exact .inl ⟨hnf, he ▸ hrun, u, he, hpulse, .inl ⟨hs, op, i, hf, hd, hu⟩⟩
  | waits x hi hk ht =>
    subst hi ht
    exact .inr (.inl ⟨hnf, rfl, rfl, rfl, rfl, KeyLatch.first_eq_none.mp hk, .inr ⟨op, x, hf, hd⟩⟩)
  | raises c info hraised =>
    rw [State.endStep_of_raised hraised]
    exact .inr (.inr (.of_takeFault hnf ..))

/-- The resume check completes when a key is pressed and goes on waiting when none is (R246). -/
theorem resume_outcome {s : State} (hs : s.status = .awaitingKey) :
    StepCompleted s s.noPulse.resume ∨ StepWaiting s s.noPulse.resume := by
  have hnf : s.status ≠ .faulted := by simp [hs]
  rcases s.noPulse.resume_cases with ⟨k, _, e⟩ | ⟨hk, e⟩ <;> rw [e]
  · refine .inl ⟨hnf, rfl, _, rfl, rfl, .inr ⟨hs, fun p hp => ?_⟩⟩
    cases p <;> simp_all [Part.same]
  · exact .inr ⟨hnf, hs, rfl, rfl, rfl, KeyLatch.first_eq_none.mp hk, .inl hs⟩

/-- Every step that answers a next state has one of the four outcomes (R126). -/
theorem step_outcome {s t : State} (h : step s = .next t) :
    StepCompleted s t ∨ StepWaiting s t ∨ StepFaulted s t ∨ StepDead s t := by
  rcases step_cases h with ⟨hs, rfl⟩ | ⟨hs, rfl⟩ | ⟨hs, _, rfl⟩ | ⟨hs, _, _, _, rfl⟩ | ⟨hs, op, i, u, hf, hd, hu, rfl⟩
  · exact .inr (.inr (.inr ⟨hs, rfl, s.noPulse_frame⟩))
  · exact (resume_outcome hs).imp_right .inl
  · exact .inr (.inr (.inl (.of_takeFault (by simp [hs]) ..)))
  · exact .inr (.inr (.inl (.of_takeFault (by simp [hs]) ..)))
  · exact (endStep_outcome hs hf hd hu).imp_right fun h => h.imp_right .inl

end Sys2Proof.Machine

/-! ## The obligations -/

namespace Sys2Proof.Proofs

open Sys2Proof Sys2Proof.Machine

/-- Settles O7, by the two answers of a fetch: `exec` never writes `OPCODE`, and a fetch above 4094 is the fault of the step. -/
theorem fetchIsBigEndianAndBounded : Obligations.FetchIsBigEndianAndBounded := by
  unfold Obligations.FetchIsBigEndianAndBounded
  intro s hs
  refine ⟨fun hpc => ?_, fun hpc => ⟨_, _, step_of_pc_gt hs hpc, rfl, rfl, rfl, ?_⟩⟩
  · rcases s.fetch_cases with ⟨_, hf⟩ | ⟨hgt, _⟩
    · exact ⟨_, hf, wordOfBytes_toNat _ _, fun t h ht => step_opcode hs hf h ht⟩
    · omega
  · have hlt : s.pc.toNat < 65536 := s.pc.isLt
    exact (BitVec.toNat_ofNat _ 16).trans (Nat.mod_eq_of_lt (by omega))

/-- Settles O12, by the inversion of a step and the three ways an execute phase can end. -/
theorem everyStepHasOneOfFourOutcomes : Obligations.EveryStepHasOneOfFourOutcomes := by
  unfold Obligations.EveryStepHasOneOfFourOutcomes
  intro s
  obtain ⟨t, h⟩ := step_next s
  exact ⟨t, h, step_outcome h⟩

end Sys2Proof.Proofs
end

section
/-! PROOF. Control flow without the stack (spec/41_control_flow.md): what SYS, JP and JP V0 do, which words decode to SYS, and the
obligations about them. -/
namespace Sys2Proof.Machine

/-! ## The words of SYS (R100, R142) -/

/-- The words below 0x1000 are those whose leading nibble is 0 (R8). -/
theorem fieldT_eq_zero_iff {op : Word} : fieldT op = 0x0#4 ↔ op.toNat < 0x1000 := by
  rw [← BitVec.toNat_inj, fieldT_toNat, BitVec.toNat_ofNat]
  omega

/-- With the two exact words aside, a leading nibble of 0 decodes to SYS (R101). -/
theorem decodeWord_of_fieldT_zero {op : Word} (hcls : op ≠ 0x00E0#16) (hret : op ≠ 0x00EE#16) (hT : fieldT op = 0x0#4) :
    decodeWord op = .ok (.sys (fieldNNN op)) := by
  rw [decodeWord, if_neg hcls, if_neg hret, hT]
  rfl

/-! ## Jumps (R144, R148) -/

/-- Setting `PC` changes `PC` alone. -/
theorem State.setPC_frame (s : State) (x : Word) : Frame [.pc] s (s.setPC x) := by
  intro p hp
  cases p <;> simp_all [Part.same]

/-- Extending a byte keeps its value (R11). -/
theorem zextByte_toNat (b : Byte) : (zextByte b).toNat = b.toNat :=
  BitVec.toNat_setWidth_of_le (by decide)

/-- Extending a 12-bit immediate keeps its value (R97). -/
theorem zextImm_toNat (n : Imm12) : (zextImm n).toNat = n.toNat :=
  BitVec.toNat_setWidth_of_le (by decide)

/-- The sum of a byte and a 12-bit immediate is at most 0x10FE, so it fits in 16 bits (R148). -/
theorem zextByte_add_zextImm_toNat (b : Byte) (n : Imm12) : (zextByte b + zextImm n).toNat = b.toNat + n.toNat := by
  have hb : b.toNat < 256 := b.isLt
  have hn : n.toNat < 4096 := n.isLt
  rw [BitVec.toNat_add, zextByte_toNat, zextImm_toNat]
  exact Nat.mod_eq_of_lt (by omega)

end Sys2Proof.Machine

/-! ## The obligations -/

namespace Sys2Proof.Proofs

open Sys2Proof Sys2Proof.Machine

/-- Settles O28: SYS answers the state it was given, and the words below 0x1000 are those with leading nibble 0. -/
theorem sysDoesNothing : Obligations.SysDoesNothing := by
  unfold Obligations.SysDoesNothing
  exact ⟨fun _ s => ⟨s, rfl, .refl [] s⟩,
    fun _ hlt hcls hret => ⟨_, decodeWord_of_fieldT_zero hcls hret (fieldT_eq_zero_iff.mpr hlt)⟩⟩

/-- Settles O29: both jumps only set `PC`, and the sum of JP V0 does not wrap. -/
theorem jumpsSetThePc : Obligations.JumpsSetThePc := by
  unfold Obligations.JumpsSetThePc
  exact fun nnn s => ⟨⟨_, rfl, zextImm_toNat nnn, s.setPC_frame _⟩,
    ⟨_, rfl, zextByte_add_zextImm_toNat (s.reg 0) nnn, s.setPC_frame _⟩⟩

end Sys2Proof.Proofs
end

section
/-! PROOF. The skips on registers (spec/42_skips.md): a skip when two bytes are equal, a skip when they differ, and the obligation
about the four instructions that compare so. -/
namespace Sys2Proof.Machine

/-! ## Skips on a comparison of two bytes (R160 to R163) -/

/-- The skip of SE: taken exactly when the two bytes are equal, and `PC` alone may change (R160, R162). -/
theorem skipIf_beq_next (a b : Byte) (s : State) :
    ∃ t, skipIf (a == b) s = .next t ∧ t.pc = (if a = b then s.pc + 2#16 else s.pc) ∧ Frame [.pc] s t := by
  simpa only [beq_iff_eq] using skipIf_next (a == b) s

/-- The skip of SNE: taken exactly when the two bytes differ, and `PC` alone may change (R161, R163). -/
theorem skipIf_bne_next (a b : Byte) (s : State) :
    ∃ t, skipIf (a != b) s = .next t ∧ t.pc = (if a = b then s.pc else s.pc + 2#16) ∧ Frame [.pc] s t := by
  simpa only [bne_iff_ne, ite_not] using skipIf_next (a != b) s

end Sys2Proof.Machine

/-! ## The obligation -/

namespace Sys2Proof.Proofs

open Sys2Proof Sys2Proof.Machine

/-- Settles O31: each of the four is a skip on the comparison of `Vx` with the immediate or with `Vy`. -/
theorem registerSkips : Obligations.RegisterSkips := by
  unfold Obligations.RegisterSkips
  exact fun x y nn s => ⟨skipIf_beq_next (s.reg x) nn s, skipIf_bne_next (s.reg x) nn s,
    skipIf_beq_next (s.reg x) (s.reg y) s, skipIf_bne_next (s.reg x) (s.reg y) s⟩

end Sys2Proof.Proofs
end

section
/-! PROOF. The loads and the add that write one register and no flag (spec/43_load_alu.md), and the obligation about them. -/

/-! ## The obligation -/

namespace Sys2Proof.Proofs

open Sys2Proof Sys2Proof.Machine

/-- Settles O33: each of the three is one write of `Vx` with its new value, so the rule of `setReg` gives what is read back and
what is kept; the byte sum of ADD drops its carry (R171). -/
theorem immediateLoadsAndAdds : Obligations.ImmediateLoadsAndAdds := by
  unfold Obligations.ImmediateLoadsAndAdds
  intro x y nn s
  refine ⟨⟨_, rfl, s.reg_setReg_same x nn, s.setReg_frame x nn⟩, ⟨_, rfl, ?_, s.setReg_frame x (s.reg x + nn)⟩,
    ⟨_, rfl, s.reg_setReg_same x (s.reg y), s.setReg_frame x (s.reg y)⟩⟩
  rw [State.reg_setReg_same, BitVec.toNat_add]

end Sys2Proof.Proofs
end

section
/-! PROOF. The display (spec/45_display.md): clearing the frame buffer, the wrap of sprite coordinates, what a draw in range leaves
to be read back, and the obligations about them. -/
namespace Sys2Proof.Machine

/-! ## Clearing (R220) -/

/-- Replacing the frame buffer changes the frame buffer alone. -/
theorem State.fb_frame (s : State) (fb : FrameBuffer) : Frame [.fb] s { s with fb := fb } := by
  intro p hp
  cases p <;> simp_all [Part.same, State.reg]

/-! ## Coordinates wrap (R223) -/

/-- Offsets that stay inside one screen, 64 columns by 32 rows, reach different cells from one start. -/
theorem pixelAt_offset_inj {x y r c r' c' : Nat} (hc : c < 64) (hc' : c' < 64) (hr : r < 32) (hr' : r' < 32)
    (h : pixelAt (x + c) (y + r) = pixelAt (x + c') (y + r')) : r = r' ∧ c = c' := by
  have e := congrArg Fin.val h
  simp only [pixelAt_val] at e
  omega

/-- The cell of a coordinate pair depends on the column mod 64 and the row mod 32 alone. -/
theorem pixelAt_congr {x x' y y' : Nat} (hx : x' % 64 = x % 64) (hy : y' % 32 = y % 32) : pixelAt x' y' = pixelAt x y := by
  apply Fin.ext
  rw [pixelAt_val, pixelAt_val, hx, hy]

/-- The cells under one sprite row depend on its start column mod 64 and its row mod 32 alone. -/
theorem rowPixels_congr {x x' y y' : Nat} (hx : x' % 64 = x % 64) (hy : y' % 32 = y % 32) (b : Byte) :
    rowPixels x' y' b = rowPixels x y b := by
  have hp (c : Nat) : pixelAt (x' + c) y' = pixelAt (x + c) y := pixelAt_congr (Nat.ModEq.add_right c hx) hy
  simp only [rowPixels, hp]

/-- The cells under a sprite depend on its start column mod 64 and its start row mod 32 alone. -/
theorem spritePixels_congr {x x' : Nat} (hx : x' % 64 = x % 64) (rows : List Byte) :
    ∀ {y y' : Nat}, y' % 32 = y % 32 → spritePixels x' y' rows = spritePixels x y rows := by
  induction rows with
  | nil => exact fun _ => rfl
  | cons b rows ih =>
    intro y y' hy
    rw [spritePixels, spritePixels, rowPixels_congr hx hy b, ih (Nat.ModEq.add_right 1 hy)]

/-- The sprite bytes depend on `I` and memory alone (R222). -/
theorem State.spriteRows_congr {s s' : State} (hi : s'.i = s.i) (hmem : s'.mem = s.mem) (n : Nat) :
    s'.spriteRows n = s.spriteRows n := by
  rw [State.spriteRows, State.spriteRows, hi, hmem]

/-! ## A draw in range (R222, R224) -/

/-- What a draw in range leaves in the frame buffer and in `VF`. -/
theorem execDrw_inRange {x y : Reg} {n : Nibble} {s t : State} (hn : n.toNat = 0 ∨ s.i.toNat + n.toNat ≤ 4096)
    (h : execDrw x y n s = .next t) :
    (∀ p, FrameBuffer.cell t.fb p = (FrameBuffer.cell s.fb p ^^ decide (p ∈ s.drawPixels x y (s.spriteRows n.toNat)))) ∧
      t.reg 15 = flagByte ((s.drawPixels x y (s.spriteRows n.toNat)).any fun p => FrameBuffer.cell s.fb p) := by
  rcases execDrw_cases x y n s with ⟨_, u, hu, hcell, hvf, _⟩ | ⟨hpos, hout, _⟩
  · rw [h, next_inj] at hu
    subst hu
    exact ⟨hcell, hvf⟩
  · omega

end Sys2Proof.Machine

/-! ## The obligations -/

namespace Sys2Proof.Proofs

open Sys2Proof Sys2Proof.Machine

/-- Settles O44: CLS replaces the frame buffer by the cleared one, and nothing else. -/
theorem clearScreenClearsEveryCell : Obligations.ClearScreenClearsEveryCell := by
  unfold Obligations.ClearScreenClearsEveryCell
  exact fun s => ⟨_, rfl, FrameBuffer.cell_clear, s.fb_frame _⟩

/-- Settles O47: a draw in range leaves what its list of pixels and the old buffer determine, and that list depends on `Vx` mod 64,
`Vy` mod 32, `I` and memory alone. -/
theorem drawCoordinatesWrap : Obligations.DrawCoordinatesWrap := by
  unfold Obligations.DrawCoordinatesWrap
  refine ⟨fun _ _ _ _ => pixelAt_val _ _,
    fun _ _ _ _ _ _ hc hc' hr hr' => pixelAt_offset_inj (by omega) (by omega) (by omega) (by omega), ?_⟩
  intro x y n s s' t t' hi hmem hfb hx hy hn h h'
  obtain ⟨hcell, hvf⟩ := execDrw_inRange hn h
  obtain ⟨hcell', hvf'⟩ := execDrw_inRange (hi ▸ hn) h'
  have hpixels : s'.drawPixels x y (s'.spriteRows n.toNat) = s.drawPixels x y (s.spriteRows n.toNat) := by
    rw [State.spriteRows_congr hi hmem]
    exact spritePixels_congr hx _ hy
  rw [hfb, hpixels] at hvf'
  refine ⟨fun p => ?_, hvf'.trans hvf.symm⟩
  rw [hcell', hcell, hfb, hpixels]

end Sys2Proof.Proofs
end

section
/-! PROOF. The timers (spec/46_keypad_timers.md): what writing one timer leaves unchanged, the step around an instruction that
completes, and the obligation about the moves between registers and timers. -/
namespace Sys2Proof.Machine

/-! ## Writing a timer (R251, R252) -/

/-- Replacing the delay timer changes the delay timer alone. -/
theorem State.dt_frame (s : State) (b : Byte) : Frame [.dt] s { s with dt := b } := by
  intro p hp
  cases p <;> simp_all [Part.same, State.reg]

/-- Replacing the sound timer changes the sound timer alone. -/
theorem State.st_frame (s : State) (b : Byte) : Frame [.st] s { s with st := b } := by
  intro p hp
  cases p <;> simp_all [Part.same, State.reg]

/-! ## A step that completes (R125, R133) -/

/-- A step whose instruction leaves `Running` answers one tick of what the instruction left. -/
theorem step_of_exec_running {s u : State} {op : Word} {i : Instr} (hs : s.status = .running) (hf : s.fetch = .ok op)
    (hd : decodeWord op = .ok i) (hu : exec i (s.beginExecute op) = .next u) (hrun : u.status = .running) :
    step s = .next u.tick := by
  simp only [step, hs, hf, hd, hu, State.endStep, hrun]

end Sys2Proof.Machine

/-! ## The obligation -/

namespace Sys2Proof.Proofs

open Sys2Proof Sys2Proof.Machine

/-- Settles O21: each of the three writes one register or one timer, and the step around it ticks what that write left, so the
byte read is the timer before the tick and the byte written is decremented by it (R250 to R252, R275). -/
theorem timerMoves : Obligations.TimerMoves := by
  unfold Obligations.TimerMoves
  intro x s
  obtain ⟨hregs, hframe⟩ := s.setReg_frame x s.dt
  refine ⟨⟨_, rfl, s.reg_setReg_same x s.dt, hregs, hframe⟩, ⟨_, rfl, rfl, s.dt_frame (s.reg x)⟩,
    ⟨_, rfl, rfl, s.st_frame (s.reg x)⟩, fun op hs hf => ⟨fun hd => ?readDT, fun hd => ?writeDT, fun hd => ?writeST⟩⟩
  case readDT =>
    refine ⟨_, step_of_exec_running hs hf hd rfl hs, ?_, (State.tick_timers _).1⟩
    rw [State.tick_reg, State.reg_setReg_same, State.beginExecute_dt]
  case writeDT => exact ⟨_, step_of_exec_running hs hf hd rfl hs, (State.tick_timers _).1⟩
  case writeST => exact ⟨_, step_of_exec_running hs hf hd rfl hs, (State.tick_timers _).2, State.tick_pulse_iff rfl⟩

end Sys2Proof.Proofs
end

section
/-! PROOF. Exceptions (spec/60_exceptions.md): which words the decoder refuses, the fault of a step that fetches one, the tick that
ends a step whose instruction completes, and the obligations about them. -/
namespace Sys2Proof.Machine

/-! ## The five classes by fields (R8, R102) -/

/-- The leading nibble of a word as a bit vector and as an integer. -/
theorem fieldT_eq_iff (op : Word) (t : Nibble) : fieldT op = t ↔ op.toNat / 4096 = t.toNat := by
  rw [← BitVec.toNat_inj, fieldT_toNat]

/-- The low nibble of a word stands in a list exactly when its value stands in the list of values. -/
theorem fieldN_mem_iff (op : Word) (ns : List Nibble) : fieldN op ∈ ns ↔ op.toNat % 16 ∈ ns.map BitVec.toNat := by
  rw [← fieldN_toNat, List.mem_map_of_injective BitVec.toNat_injective]

/-- The low byte of a word stands in a list exactly when its value stands in the list of values. -/
theorem fieldNN_mem_iff (op : Word) (ns : List Byte) : fieldNN op ∈ ns ↔ op.toNat % 256 ∈ ns.map BitVec.toNat := by
  rw [← fieldNN_toNat, List.mem_map_of_injective BitVec.toNat_injective]

/-- The low nibbles that are no sub-opcode of `T = 8` (R102). -/
def unusedSubOpcodes : List Nibble := [0x8#4, 0x9#4, 0xA#4, 0xB#4, 0xC#4, 0xD#4, 0xF#4]

/-- The function bytes of `T = 0xE` (R101 (5)). -/
def functionsE : List Byte := [0x9E#8, 0xA1#8]

/-- The function bytes of `T = 0xF` (R101 (6)). -/
def functionsF : List Byte := [0x07#8, 0x0A#8, 0x15#8, 0x18#8, 0x1E#8, 0x29#8, 0x33#8, 0x55#8, 0x65#8]

/-- The five classes in terms of the fields the decoder looks at. -/
theorem illegalWord_iff_fields (op : Word) :
    IllegalWord op ↔ (fieldT op = 0x5#4 ∧ fieldN op ≠ 0x0#4) ∨ (fieldT op = 0x8#4 ∧ fieldN op ∈ unusedSubOpcodes) ∨
      (fieldT op = 0x9#4 ∧ fieldN op ≠ 0x0#4) ∨ (fieldT op = 0xE#4 ∧ fieldNN op ∉ functionsE) ∨
      (fieldT op = 0xF#4 ∧ fieldNN op ∉ functionsF) := by
  have hN : fieldN op = 0x0#4 ↔ op.toNat % 16 = 0 := by rw [← BitVec.toNat_inj, fieldN_toNat]; rfl
  simp only [fieldT_eq_iff, ne_eq, hN, fieldN_mem_iff, fieldNN_mem_iff]
  exact Iff.rfl

/-! ## The words the decoder refuses (R101, R102) -/

/-- A nibble that is none of the nine sub-opcodes of `T = 8` is one of the seven unused ones. -/
theorem mem_unusedSubOpcodes : ∀ n : Nibble, n ∈ unusedSubOpcodes ↔
    n ∉ [0x0#4, 0x1#4, 0x2#4, 0x3#4, 0x4#4, 0x5#4, 0x6#4, 0x7#4, 0xE#4] := by decide

/-- Under `T = 8` the words with an unused sub-opcode are refused. -/
theorem decode8_error_iff (op : Word) : decode8 op = .error (.unknownOpcode op) ↔ fieldN op ∈ unusedSubOpcodes := by
  rw [mem_unusedSubOpcodes]
  unfold decode8
  split <;> simp_all

/-- Under `T = 0xE` the words whose low byte is no function byte are refused. -/
theorem decodeE_error_iff (op : Word) : decodeE op = .error (.unknownOpcode op) ↔ fieldNN op ∉ functionsE := by
  unfold decodeE
  split <;> simp_all [functionsE]

/-- Under `T = 0xF` the words whose low byte is no function byte are refused. -/
theorem decodeF_error_iff (op : Word) : decodeF op = .error (.unknownOpcode op) ↔ fieldNN op ∉ functionsF := by
  unfold decodeF
  split <;> simp_all [functionsF]

/-- The sixteen nibbles. -/
theorem mem_nibbles : ∀ t : Nibble, t ∈ [0x0#4, 0x1#4, 0x2#4, 0x3#4, 0x4#4, 0x5#4, 0x6#4, 0x7#4, 0x8#4, 0x9#4, 0xA#4, 0xB#4, 0xC#4,
    0xD#4, 0xE#4, 0xF#4] := by decide

/-- The decoder refuses a word exactly when it is in one of the five classes: the two exact words and eleven leading nibbles are
legal whatever the rest, the other five leave it to the low nibble or byte, and no nibble reaches the decoder's last branch. -/
theorem decodeWord_error_iff (op : Word) : decodeWord op = .error (.unknownOpcode op) ↔ IllegalWord op := by
  rw [illegalWord_iff_fields]
  by_cases hcls : op = 0x00E0#16
  · subst hcls; decide
  by_cases hret : op = 0x00EE#16
  · subst hret; decide
  rw [decodeWord, if_neg hcls, if_neg hret]
  split
  case h_17 => have := mem_nibbles (fieldT op); simp_all
  all_goals simp [decode8_error_iff, decodeE_error_iff, decodeF_error_iff, *]

/-- A word decodes exactly when the decoder does not refuse it as unknown. -/
theorem decodeWord_ok_iff (op : Word) : (∃ i, decodeWord op = .ok i) ↔ ¬ decodeWord op = .error (.unknownOpcode op) := by
  cases hd : decodeWord op with
  | ok i => simp
  | error e => simp [decodeWord_error hd]

/-- A step that fetches a word the decoder refuses is the decode fault of that word (R123, R261). -/
theorem step_of_decodeWord_error {s : State} {op : Word} {e : DecodeError} (hs : s.status = .running) (hf : s.fetch = .ok op)
    (hd : decodeWord op = .error e) : step s = .next (s.decodeFault op) := by
  simp only [step, hs, hf, hd]

/-! ## The pulse in the execute phase (R278) -/

/-- No instruction writes `PULSE`. -/
theorem exec_pulse {i : Instr} {s t : State} (h : exec i s = .next t) : t.pulse = s.pulse := by
  cases execEnd_of_exec h with
  | completes _ _ _ hpulse => exact hpulse
  | waits _ _ _ ht => rw [ht]
  | raises _ _ hraised =>
    obtain ⟨_, _, hframe⟩ := hraised
    exact hframe .pulse (by decide)

end Sys2Proof.Machine

/-! ## The obligations -/

namespace Sys2Proof.Proofs

open Sys2Proof Sys2Proof.Machine

/-- Settles O4, by the decoder's branches: a word is refused exactly in the five classes, and the step that fetches it is the
decode fault, whose record holds the word twice. -/
theorem illegalWordsRaiseUnknownOpcode : Obligations.IllegalWordsRaiseUnknownOpcode := by
  unfold Obligations.IllegalWordsRaiseUnknownOpcode
  refine fun op => ⟨decodeWord_error_iff op, (decodeWord_ok_iff op).trans (not_congr (decodeWord_error_iff op)), ?_⟩
  intro hop s hs hf
  exact ⟨_, _, step_of_decodeWord_error hs hf ((decodeWord_error_iff op).mpr hop), rfl, rfl, rfl, rfl, rfl⟩

/-- Settles O19: the step answers one tick of what the instruction left, and no instruction raises the pulse that the step began by
clearing, so it is the tick's alone. -/
theorem completedStepsTickTheTimersOnce : Obligations.CompletedStepsTickTheTimersOnce := by
  unfold Obligations.CompletedStepsTickTheTimersOnce
  intro s u op i hs hf hd hu hrun
  obtain ⟨hdt, hst⟩ := u.tick_timers
  have hpulse : u.pulse = false := exec_pulse hu
  exact ⟨_, step_of_exec_running hs hf hd hu hrun, hdt, hst, State.tick_pulse_iff hpulse, u.tick_frame⟩

end Sys2Proof.Proofs
end

section
/-! PROOF. The host operations that write one piece of state (spec/70_reset_and_hazards.md): what a load of an image that fits leaves
to be read back, what writing the key latch or the draw flag leaves unchanged, and the obligations about them. -/
namespace Sys2Proof.Machine

/-! ## Loading an image (R305) -/

/-- The bytes written from `a` upward are read back in order. -/
theorem Memory.read_writeBytes_inside {m : Memory} {a k : Nat} {xs : List Byte} (h : m.wf = true)
    (ha : a + xs.length ≤ Config.memSize) (hk : k < xs.length) : some ((m.writeBytes a xs).read (a + k)) = xs[k]? := by
  rw [Memory.read_writeBytes h ha, if_pos (by omega), Nat.add_sub_cancel_left]
  simp [hk]

/-- An image that fits is written from 512 upward. -/
theorem State.load_of_length_le {s : State} {rom : List Byte} (hlen : rom.length ≤ 3584) :
    s.load rom = .ok { s with mem := s.mem.writeBytes 512 rom } := by
  rcases s.load_cases rom with ⟨_, e⟩ | ⟨hlong, _⟩
  · exact e
  · exact absurd hlen (Nat.not_le_of_gt hlong)

/-- The host operation answers the state of an accepted load. -/
theorem hostAct_load_of_ok {s t : State} {rom : List Byte} (h : s.load rom = .ok t) : hostAct (.load rom) s = .next t := by
  simp only [hostAct, h]

/-! ## The key latch and the draw flag (R308, R309) -/

/-- Overwriting the key latch changes the key latch alone. -/
theorem State.setKeys_frame (s : State) (k : KeyLatch) : Frame [.keys] s (s.setKeys k) := by
  intro p hp
  cases p <;> simp_all [Part.same]

/-- Clearing the draw flag changes the draw flag alone. -/
theorem State.clearDraw_frame (s : State) : Frame [.draw] s s.clearDraw := by
  intro p hp
  cases p <;> simp_all [Part.same]

end Sys2Proof.Machine

/-! ## The obligations -/

namespace Sys2Proof.Proofs

open Sys2Proof Sys2Proof.Machine

/-- Settles O50: an accepted load is one write of the image at 512, which ends inside the address space, so the rules of that write
give the bytes read back and the bytes kept. -/
theorem loadCopiesTheImage : Obligations.LoadCopiesTheImage := by
  unfold Obligations.LoadCopiesTheImage
  intro rom s hwf hlen
  have hload := State.load_of_length_le (s := s) hlen
  have hfits : 512 + rom.length ≤ Config.memSize := Nat.add_le_add_left hlen 512
  exact ⟨_, hload, fun _ hk => Memory.read_writeBytes_inside hwf hfits hk, fun _ hb => Memory.read_writeBytes_outside hb,
    s.mem_frame _, hostAct_load_of_ok hload⟩

/-- Settles O53: each of the two is one write of one field, whose frame is that field. -/
theorem hostInputsWriteOnePiece : Obligations.HostInputsWriteOnePiece := by
  unfold Obligations.HostInputsWriteOnePiece
  exact fun s => ⟨fun k => ⟨_, rfl, fun _ => rfl, s.setKeys_frame k⟩, _, rfl, rfl, s.clearDraw_frame⟩

end Sys2Proof.Proofs
end

section
/-! PROOF. The decoder and the encoder (spec/30_encoding.md): which words the decoder answers which instruction for, the rows of the
opcode map, and the obligations about them. -/
namespace Sys2Proof

open Sys2Proof.Machine

/-! ## Words with a leading nibble other than 0 (R101) -/

/-- A word whose leading nibble is not 0 is neither of the two exact words. -/
theorem ne_exact_of_fieldT_ne {op : Word} (h : fieldT op ≠ 0x0#4) : op ≠ 0x00E0#16 ∧ op ≠ 0x00EE#16 :=
  ⟨fun e => h (e ▸ rfl), fun e => h (e ▸ rfl)⟩

/-- A SYS other than the two ill-formed ones has a word other than the two exact words. -/
theorem encode_sys_ne_exact {nnn : Imm12} (h : (Instr.sys nnn).wf = true) :
    encode (.sys nnn) ≠ 0x00E0#16 ∧ encode (.sys nnn) ≠ 0x00EE#16 := by
  simp only [Instr.wf, Bool.and_eq_true, bne_iff_ne, ne_eq] at h
  obtain ⟨hcls, hret⟩ := h
  have hfield : fieldNNN (encode (.sys nnn)) = nnn := fieldNNN_encodeA 0x0#4 nnn
  exact ⟨fun e => hcls (hfield.symm.trans (congrArg fieldNNN e)), fun e => hret (hfield.symm.trans (congrArg fieldNNN e))⟩

/-! ## The round trips (R91 to R104) -/

/-- A well-formed instruction is what its word decodes to. -/
theorem decodeWord_encode {i : Instr} (h : i.wf = true) : decodeWord (encode i) = .ok i := by
  cases i
  case cls => rfl
  case ret => rfl
  case sys nnn =>
    obtain ⟨hcls, hret⟩ := encode_sys_ne_exact h
    have hT : fieldT (encode (.sys nnn)) = 0x0#4 := fieldT_encodeA 0x0#4 nnn
    rw [decodeWord_of_fieldT_zero hcls hret hT, encode, fieldNNN_encodeA]
  all_goals
    rw [encode, decodeWord, if_neg (ne_exact_of_fieldT_ne ?leading).1, if_neg (ne_exact_of_fieldT_ne ?leading).2]
    case leading => simp
    simp [decode8, decodeE, decodeF]

/-- A word of format `A` with a known leading nibble (R93). -/
theorem encodeA_of_fieldT {op : Word} {t : Nibble} (hT : fieldT op = t) : encodeA t (fieldNNN op) = op :=
  hT ▸ encodeA_fields op

/-- A word of format `XI` with a known leading nibble (R94). -/
theorem encodeXI_of_fieldT {op : Word} {t : Nibble} (hT : fieldT op = t) : encodeXI t (fieldX op) (fieldNN op) = op :=
  hT ▸ encodeXI_fields op

/-- A word of format `XYN` with a known leading nibble (R96). -/
theorem encodeXY_of_fieldT {op : Word} {t : Nibble} (hT : fieldT op = t) :
    encodeXY t (fieldX op) (fieldY op) (fieldN op) = op :=
  hT ▸ encodeXY_fields op

/-- A word of format `XY` with a known leading and low nibble (R95). -/
theorem encodeXY_of_fieldT_fieldN {op : Word} {t n : Nibble} (hT : fieldT op = t) (hN : fieldN op = n) :
    encodeXY t (fieldX op) (fieldY op) n = op :=
  hN ▸ encodeXY_of_fieldT hT

/-- Under `T = 8` the decoder answers a well-formed instruction laid out from the word's fields. -/
theorem encode_of_decode8 {op : Word} {i : Instr} (h : decode8 op = .ok i) :
    i.wf = true ∧ encode i = encodeXY 0x8#4 (fieldX op) (fieldY op) (fieldN op) := by
  unfold decode8 at h
  split at h <;> cases h <;> exact ⟨rfl, by rw [encode, ‹fieldN op = _›]⟩

/-- Under `T = 0xE` the decoder answers a well-formed instruction laid out from the word's fields. -/
theorem encode_of_decodeE {op : Word} {i : Instr} (h : decodeE op = .ok i) :
    i.wf = true ∧ encode i = encodeXI 0xE#4 (fieldX op) (fieldNN op) := by
  unfold decodeE at h
  split at h <;> cases h <;> exact ⟨rfl, by rw [encode, ‹fieldNN op = _›]⟩

/-- Under `T = 0xF` the decoder answers a well-formed instruction laid out from the word's fields. -/
theorem encode_of_decodeF {op : Word} {i : Instr} (h : decodeF op = .ok i) :
    i.wf = true ∧ encode i = encodeXI 0xF#4 (fieldX op) (fieldNN op) := by
  unfold decodeF at h
  split at h <;> cases h <;> exact ⟨rfl, by rw [encode, ‹fieldNN op = _›]⟩

/-- The SYS of a word other than the two exact words is well-formed. -/
theorem wf_sys_fieldNNN {op : Word} (hcls : op ≠ 0x00E0#16) (hret : op ≠ 0x00EE#16) (hT : fieldT op = 0x0#4) :
    (Instr.sys (fieldNNN op)).wf = true := by
  have hop := encodeA_of_fieldT hT
  simp only [Instr.wf, Bool.and_eq_true, bne_iff_ne]
  exact ⟨fun e => hcls (by rw [← hop, e]; rfl), fun e => hret (by rw [← hop, e]; rfl)⟩

/-- What the decoder answers is well-formed and has the word decoded: each branch keeps every field of the word. -/
theorem encode_of_decodeWord {op : Word} {i : Instr} (h : decodeWord op = .ok i) : i.wf = true ∧ encode i = op := by
  by_cases hcls : op = 0x00E0#16
  · subst hcls; cases h; exact ⟨rfl, rfl⟩
  by_cases hret : op = 0x00EE#16
  · subst hret; cases h; exact ⟨rfl, rfl⟩
  rw [decodeWord, if_neg hcls, if_neg hret] at h
  split at h
  case h_1 hT => cases h; exact ⟨wf_sys_fieldNNN hcls hret hT, encodeA_of_fieldT hT⟩
  case h_2 hT | h_3 hT | h_11 hT | h_12 hT => cases h; exact ⟨rfl, encodeA_of_fieldT hT⟩
  case h_4 hT | h_5 hT | h_7 hT | h_8 hT | h_13 hT => cases h; exact ⟨rfl, encodeXI_of_fieldT hT⟩
  case h_6 hT | h_10 hT =>
    split at h <;> cases h
    exact ⟨rfl, encodeXY_of_fieldT_fieldN hT ‹fieldN op = _›⟩
  case h_9 hT => exact encodeXY_of_fieldT hT ▸ encode_of_decode8 h
  case h_14 hT => cases h; exact ⟨rfl, encodeXY_of_fieldT hT⟩
  case h_15 hT => exact encodeXI_of_fieldT hT ▸ encode_of_decodeE h
  case h_16 hT => exact encodeXI_of_fieldT hT ▸ encode_of_decodeF h
  case h_17 => cases h

/-! ## The rows of the opcode map (R100) -/

/-- The word of an instruction matches the instruction's row: the family of the rows, gathered. -/
theorem encode_matches_row (i : Instr) : encode i &&& i.mask = i.fixedBits :=
  match i with
  | .cls => Laws.MatchesRow.cls
  | .ret => Laws.MatchesRow.ret
  | .sys nnn => Laws.MatchesRow.sys nnn
  | .jp nnn => Laws.MatchesRow.jp nnn
  | .call nnn => Laws.MatchesRow.call nnn
  | .seImm x nn => Laws.MatchesRow.seImm x nn
  | .sneImm x nn => Laws.MatchesRow.sneImm x nn
  | .seReg x y => Laws.MatchesRow.seReg x y
  | .ldImm x nn => Laws.MatchesRow.ldImm x nn
  | .addImm x nn => Laws.MatchesRow.addImm x nn
  | .ldReg x y => Laws.MatchesRow.ldReg x y
  | .orReg x y => Laws.MatchesRow.orReg x y
  | .andReg x y => Laws.MatchesRow.andReg x y
  | .xorReg x y => Laws.MatchesRow.xorReg x y
  | .addReg x y => Laws.MatchesRow.addReg x y
  | .sub x y => Laws.MatchesRow.sub x y
  | .shr x y => Laws.MatchesRow.shr x y
  | .subn x y => Laws.MatchesRow.subn x y
  | .shl x y => Laws.MatchesRow.shl x y
  | .sneReg x y => Laws.MatchesRow.sneReg x y
  | .ldI nnn => Laws.MatchesRow.ldI nnn
  | .jpV0 nnn => Laws.MatchesRow.jpV0 nnn
  | .rnd x nn => Laws.MatchesRow.rnd x nn
  | .drw x y n => Laws.MatchesRow.drw x y n
  | .skp x => Laws.MatchesRow.skp x
  | .sknp x => Laws.MatchesRow.sknp x
  | .ldVxDT x => Laws.MatchesRow.ldVxDT x
  | .ldVxK x => Laws.MatchesRow.ldVxK x
  | .ldDTVx x => Laws.MatchesRow.ldDTVx x
  | .ldSTVx x => Laws.MatchesRow.ldSTVx x
  | .addI x => Laws.MatchesRow.addI x
  | .ldF x => Laws.MatchesRow.ldF x
  | .ldB x => Laws.MatchesRow.ldB x
  | .storeRegs x => Laws.MatchesRow.storeRegs x
  | .loadRegs x => Laws.MatchesRow.loadRegs x

/-- A word that decodes to an instruction matches that instruction's row. -/
theorem matches_row_of_decodeWord {op : Word} {i : Instr} (h : decodeWord op = .ok i) : op &&& i.mask = i.fixedBits := by
  obtain ⟨_, hop⟩ := encode_of_decodeWord h
  rw [← hop]
  exact encode_matches_row i

/-- A match under the mask 0xF000 fixes the leading nibble. -/
theorem fieldT_of_and_mask_T {op b : Word} (h : op &&& 0xF000#16 = b) : fieldT op = b.extractLsb' 12 4 := by
  rw [← h, Laws.MatchesRow.and_mask_T, ← fieldT, fieldT_encodeXY]

/-- A match under the mask 0xF00F fixes the leading and the low nibble. -/
theorem fields_of_and_mask_TN {op b : Word} (h : op &&& 0xF00F#16 = b) :
    fieldT op = b.extractLsb' 12 4 ∧ fieldN op = b.extractLsb' 0 4 := by
  rw [← h, Laws.MatchesRow.and_mask_TN, ← fieldT, ← fieldN, fieldT_encodeXY, fieldN_encodeXY]
  exact ⟨rfl, rfl⟩

/-- A match under the mask 0xF0FF fixes the leading nibble and the low byte. -/
theorem fields_of_and_mask_TNN {op b : Word} (h : op &&& 0xF0FF#16 = b) :
    fieldT op = b.extractLsb' 12 4 ∧ fieldNN op = b.extractLsb' 0 8 := by
  rw [← h, Laws.MatchesRow.and_mask_TNN, ← fieldT, ← fieldNN, fieldT_encodeXI, fieldNN_encodeXI]
  exact ⟨rfl, rfl⟩

/-- A word that matches a row, and is neither exact word where the row is that of SYS, decodes to an instruction of that row: its
fixed bits are the leading nibble, and the low nibble or byte, that the decoder branches on. -/
theorem decodeWord_of_matches_row {op : Word} {j : Instr} (h : op &&& j.mask = j.fixedBits)
    (hsys : j.fixedBits = 0x0000#16 → op ≠ 0x00E0#16 ∧ op ≠ 0x00EE#16) :
    ∃ i : Instr, decodeWord op = .ok i ∧ i.mask = j.mask ∧ i.fixedBits = j.fixedBits := by
  cases j <;> simp only [Instr.mask, Instr.fixedBits] at h
  case cls | ret =>
    rw [show (0xFFFF#16 : Word) = BitVec.allOnes 16 from rfl, BitVec.and_allOnes] at h
    subst h
    exact ⟨_, rfl, rfl, rfl⟩
  case sys nnn =>
    obtain ⟨hcls, hret⟩ := hsys rfl
    exact ⟨_, decodeWord_of_fieldT_zero hcls hret (fieldT_of_and_mask_T h), rfl, rfl⟩
  case jp | call | ldI | jpV0 | seImm | sneImm | ldImm | addImm | rnd | drw =>
    have hT := fieldT_of_and_mask_T h
    simp only [BitVec.reduceExtractLsb'] at hT
    obtain ⟨hcls, hret⟩ := ne_exact_of_fieldT_ne (hT.trans_ne (by decide))
    rw [decodeWord, if_neg hcls, if_neg hret, hT]
    exact ⟨_, rfl, rfl, rfl⟩
  case seReg | sneReg | ldReg | orReg | andReg | xorReg | addReg | sub | shr | subn | shl =>
    obtain ⟨hT, hN⟩ := fields_of_and_mask_TN h
    simp only [BitVec.reduceExtractLsb'] at hT hN
    obtain ⟨hcls, hret⟩ := ne_exact_of_fieldT_ne (hT.trans_ne (by decide))
    rw [decodeWord, if_neg hcls, if_neg hret, hT]
    simp only [decode8, hN]
    exact ⟨_, rfl, rfl, rfl⟩
  case skp | sknp | ldVxDT | ldVxK | ldDTVx | ldSTVx | addI | ldF | ldB | storeRegs | loadRegs =>
    obtain ⟨hT, hNN⟩ := fields_of_and_mask_TNN h
    simp only [BitVec.reduceExtractLsb'] at hT hNN
    obtain ⟨hcls, hret⟩ := ne_exact_of_fieldT_ne (hT.trans_ne (by decide))
    rw [decodeWord, if_neg hcls, if_neg hret, hT]
    simp only [decodeE, decodeF, hNN]
    exact ⟨_, rfl, rfl, rfl⟩

end Sys2Proof

/-! ## The obligations -/

namespace Sys2Proof.Proofs

open Sys2Proof Sys2Proof.Machine

/-- Settles O1: the fields of the encoded word are the operands laid out in it, and its leading nibble, with the low nibble or byte,
leads the decoder to the instruction's branch. -/
theorem decodeInvertsEncode : Obligations.DecodeInvertsEncode := by
  unfold Obligations.DecodeInvertsEncode
  exact fun _ h => decodeWord_encode h

/-- Settles O2: every branch of the decoder keeps all fields of the word, which put together are the word. -/
theorem encodeInvertsDecode : Obligations.EncodeInvertsDecode := by
  unfold Obligations.EncodeInvertsDecode
  exact fun _ _ h => encode_of_decodeWord h

/-- Settles O3: a decoded word is the word of its instruction, which matches the row; and a row's fixed bits are what the decoder
branches on. -/
theorem decodeFindsTheMatchingRow : Obligations.DecodeFindsTheMatchingRow := by
  unfold Obligations.DecodeFindsTheMatchingRow
  exact fun _ => ⟨fun _ h => matches_row_of_decodeWord h, fun _ h hsys => decodeWord_of_matches_row h hsys⟩

/-- Settles O5: each of the words is the word of the instruction named, but the last, which is in a class of illegal words. -/
theorem sampleWordsDecode : Obligations.SampleWordsDecode := by
  unfold Obligations.SampleWordsDecode
  refine ⟨rfl, rfl, decodeWord_encode (i := .call 0xABC#12) rfl, decodeWord_encode (i := .shr 3 10) rfl,
    decodeWord_encode (i := .drw 1 2 0xF#4) rfl, decodeWord_encode (i := .loadRegs 2) rfl, ?_⟩
  exact (decodeWord_error_iff 0xFFFF#16).mpr (by unfold IllegalWord; decide)

end Sys2Proof.Proofs
end

section
/-! PROOF. The call stack (spec/41_control_flow.md) and the end of a step whose instruction raised a fault (spec/60_exceptions.md
section 4): what RET and CALL do at each depth, and the obligations about them. -/
namespace Sys2Proof.Machine

/-! ## A step whose instruction raises (R133, R271) -/

/-- A fault taken in the execute phase is a raise (R271). -/
theorem State.takeFault_raised (s : State) (c : Cause) (info : Word) :
    Raised s (s.takeFault c info (s.pc - 2#16) (some s.opcode)) c info :=
  ⟨rfl, rfl, s.takeFault_frame c info _ _⟩

/-- When its instruction raises, a step is that fault taken where the step began, at `PC` and with the word fetched. -/
theorem step_of_exec_raised {s u : State} {op : Word} {i : Instr} {c : Cause} {info : Word} (hs : s.status = .running)
    (hf : s.fetch = .ok op) (hd : decodeWord op = .ok i) (hu : exec i (s.beginExecute op) = .next u)
    (hr : Raised (s.beginExecute op) u c info) : step s = .next (s.noPulse.takeFault c info s.pc (some op)) := by
  have hpc : s.pc + 2#16 - 2#16 = s.pc := BitVec.add_sub_cancel s.pc 2#16
  simp only [step, hs, hf, hd, hu, State.endStep_of_raised hr, State.beginExecute_pc, State.beginExecute_opcode, hpc]

/-- When its instruction raises, a step ends `Faulted` with that cause and changes nothing but `STATUS`, `FAULT` and the pulse. -/
theorem step_faulted_of_exec_raised {s : State} {op : Word} {i : Instr} {c : Cause} {info : Word} (hs : s.status = .running)
    (hf : s.fetch = .ok op) (hd : decodeWord op = .ok i)
    (hr : ∃ u, exec i (s.beginExecute op) = .next u ∧ Raised (s.beginExecute op) u c info) :
    ∃ t r, step s = .next t ∧ t.status = .faulted ∧ t.fault = some r ∧ r.cause = c ∧
      Frame [.status, .fault, .pulse] s t := by
  obtain ⟨u, hu, hr⟩ := hr
  obtain ⟨_, _, _, _, hframe⟩ := StepFaulted.of_takeFault (s := s) (by simp [hs]) c info s.pc (some op)
  exact ⟨_, _, step_of_exec_raised hs hf hd hu hr, rfl, rfl, rfl, hframe⟩

/-! ## RET (R140) -/

/-- RET with an entry on the stack pops it into `PC`. -/
theorem exec_ret_of_pos (s : State) (h : 0 < s.sp.val) :
    ∃ t, exec .ret s = .next t ∧ t.pc = s.stack[s.sp.val - 1]'(by omega) ∧ t.sp.val = s.sp.val - 1 ∧ Frame [.pc, .sp] s t := by
  rcases s.popped_cases with ⟨_, e⟩ | ⟨hempty, _⟩
  · refine ⟨_, by rw [exec, execRet, e], rfl, rfl, fun p hp => ?_⟩
    cases p <;> simp_all [Part.same, State.reg]
  · omega

/-- RET on an empty stack raises `StackUnderflow`. -/
theorem exec_ret_of_empty (s : State) (h : s.sp.val = 0) :
    ∃ t, exec .ret s = .next t ∧ Raised s t .stackUnderflow 0#16 := by
  rcases s.popped_cases with ⟨hpos, _⟩ | ⟨_, e⟩
  · omega
  · rw [exec, execRet, e]
    exact s.raise_raised _ _

/-! ## CALL (R146) -/

/-- CALL with room on the stack pushes the advanced `PC` at the depth and jumps. -/
theorem exec_call_of_lt (nnn : Imm12) (s : State) (h : s.sp.val < 16) :
    ∃ t, exec (.call nnn) s = .next t ∧ t.pc.toNat = nnn.toNat ∧ t.sp.val = s.sp.val + 1 ∧
      (∀ k : Fin 16, t.stack[k.val] = if k.val = s.sp.val then s.pc else s.stack[k.val]) ∧ Frame [.pc, .sp, .stack] s t := by
  rcases s.pushed_cases s.pc with ⟨_, e⟩ | ⟨hfull, _⟩
  · refine ⟨_, by rw [exec, execCall, e], zextImm_toNat nnn, rfl, fun k => ?_, fun p hp => ?_⟩
    · rw [State.setPC_stack, Vector.getElem_set]
      simp only [eq_comm]
    · cases p <;> simp_all [Part.same, State.reg]
  · omega

/-- CALL with 16 entries in use raises `StackOverflow`. -/
theorem exec_call_of_full (nnn : Imm12) (s : State) (h : s.sp.val = 16) :
    ∃ t, exec (.call nnn) s = .next t ∧ Raised s t .stackOverflow 0#16 := by
  rcases s.pushed_cases s.pc with ⟨hlt, _⟩ | ⟨_, e⟩
  · omega
  · rw [exec, execCall, e]
    exact s.raise_raised _ _

end Sys2Proof.Machine

/-! ## The obligations -/

namespace Sys2Proof.Proofs

open Sys2Proof Sys2Proof.Machine

/-- Settles O25, by the depth: above 0 the top entry is popped, at 0 the instruction raises and the step around it faults. -/
theorem returnPopsThePc : Obligations.ReturnPopsThePc := by
  unfold Obligations.ReturnPopsThePc
  exact ⟨exec_ret_of_pos, exec_ret_of_empty,
    fun s op hs hf hd hsp => step_faulted_of_exec_raised hs hf hd (exec_ret_of_empty (s.beginExecute op) hsp)⟩

/-- Settles O26, by the depth: below 16 the advanced `PC` is pushed, at 16 the instruction raises and the step around it faults. -/
theorem callPushesTheReturnAddress : Obligations.CallPushesTheReturnAddress := by
  unfold Obligations.CallPushesTheReturnAddress
  exact fun nnn => ⟨exec_call_of_lt nnn, exec_call_of_full nnn,
    fun s op hs hf hd hsp => step_faulted_of_exec_raised hs hf hd (exec_call_of_full nnn (s.beginExecute op) hsp)⟩

/-- Settles O27: the depth the CALL left is above 0, so the RET pops the entry below it, which is the one the CALL wrote. -/
theorem callThenReturnComesBack : Obligations.CallThenReturnComesBack := by
  unfold Obligations.CallThenReturnComesBack
  intro nnn s t u hlt ht hsp hstack
  obtain ⟨t', ht', _, htsp, htop, _⟩ := exec_call_of_lt nnn s hlt
  rw [ht, next_inj] at ht'
  subst ht'
  have husp : u.sp.val = s.sp.val + 1 := hsp ▸ htsp
  obtain ⟨w, hw, hpc, hwsp, _⟩ := exec_ret_of_pos u (by omega)
  refine ⟨w, hw, ?_, Fin.ext (by omega)⟩
  have hk := (hstack ⟨s.sp.val, hlt⟩ rfl).trans (htop ⟨s.sp.val, hlt⟩)
  simp only [husp, Nat.add_sub_cancel] at hpc
  rw [hpc, hk, if_pos rfl]

end Sys2Proof.Proofs
end

section
/-! PROOF. The keypad (spec/46_keypad_timers.md): what the key skips do below and above key 15, what LD Vx, K does with a key pressed
and with none, and the obligations about them. -/
namespace Sys2Proof.Machine

/-! ## Key skips (R240 to R242) -/

/-- SKP of a key number is a skip on that key. -/
theorem execSkp_of_key {x : Reg} {s : State} {k : Reg} (h : (s.reg x).toNat = k.val) : execSkp x s = skipIf s.keys[k.val] s := by
  rw [execSkp, keyOf_eq_some.mpr h]

/-- SKNP of a key number is a skip on that key being released. -/
theorem execSknp_of_key {x : Reg} {s : State} {k : Reg} (h : (s.reg x).toNat = k.val) :
    execSknp x s = skipIf (!s.keys[k.val]) s := by
  rw [execSknp, keyOf_eq_some.mpr h]

/-- SKP above key 15 raises `KeyIndexError` with the number. -/
theorem execSkp_of_gt {x : Reg} {s : State} (h : 15 < (s.reg x).toNat) :
    ∃ t, execSkp x s = .next t ∧ Raised s t .keyIndex ((s.reg x).setWidth 16) := by
  rw [execSkp, keyOf_eq_none.mpr h]
  exact s.raise_raised _ _

/-- SKNP above key 15 raises `KeyIndexError` with the number. -/
theorem execSknp_of_gt {x : Reg} {s : State} (h : 15 < (s.reg x).toNat) :
    ∃ t, execSknp x s = .next t ∧ Raised s t .keyIndex ((s.reg x).setWidth 16) := by
  rw [execSknp, keyOf_eq_none.mpr h]
  exact s.raise_raised _ _

/-! ## Waiting for a key (R244 to R246) -/

/-- Replacing `STATUS` changes `STATUS` alone. -/
theorem State.status_frame (s : State) (r : RunStatus) : Frame [.status] s { s with status := r } := by
  intro p hp
  cases p <;> simp_all [Part.same, State.reg]

/-- LD Vx, K with a key pressed writes the lowest pressed key's number to `Vx`. -/
theorem execLdVxK_of_key {x : Reg} {s : State} {k : Reg} (h : KeyLatch.first s.keys = some k) :
    execLdVxK x s = .next (s.setReg x (keyCode k)) := by
  rw [execLdVxK, h]

/-- LD Vx, K with no key pressed only starts the wait. -/
theorem execLdVxK_of_noKey {x : Reg} {s : State} (h : KeyLatch.first s.keys = none) :
    execLdVxK x s = .next { s with status := .awaitingKey } := by
  rw [execLdVxK, h]

end Sys2Proof.Machine

/-! ## The obligations -/

namespace Sys2Proof.Proofs

open Sys2Proof Sys2Proof.Machine

/-- Settles O32: a register's value up to 15 selects a key, on which the two instructions skip; above 15 it selects none. -/
theorem keySkips : Obligations.KeySkips := by
  unfold Obligations.KeySkips
  refine fun x s => ⟨fun k hk => ⟨?_, ?_⟩, fun h => ⟨execSkp_of_gt h, execSknp_of_gt h⟩⟩
  · rw [exec, execSkp_of_key hk]
    exact skipIf_next s.keys[k.val] s
  · rw [exec, execSknp_of_key hk]
    simpa only [Bool.not_eq_true', ← Bool.not_eq_true, ite_not] using skipIf_next (!s.keys[k.val]) s

/-- Settles O49: the lowest pressed key is what the instruction finds, and it finds none exactly when none is pressed. -/
theorem waitForKeyTakesTheLowestOrWaits : Obligations.WaitForKeyTakesTheLowestOrWaits := by
  unfold Obligations.WaitForKeyTakesTheLowestOrWaits
  intro x s
  constructor
  · intro k hk hlow
    obtain ⟨hregs, hframe⟩ := s.setReg_frame x (keyCode k)
    refine ⟨_, execLdVxK_of_key (KeyLatch.first_eq_some.mpr ⟨hk, hlow⟩), ?_, hregs, hframe⟩
    rw [State.reg_setReg_same, keyCode_toNat]
  · exact fun hnone => ⟨_, execLdVxK_of_noKey (KeyLatch.first_eq_none.mpr hnone), rfl, s.status_frame .awaitingKey⟩

end Sys2Proof.Proofs
end

section
/-! PROOF. The arithmetic, logic, shifts and random bytes (spec/43_load_alu.md): the values and flags as integers, and the obligations
about them. -/
namespace Sys2Proof.Machine

/-! ## Flags and results as integers (R177 to R185) -/

/-- A flag's byte is 1 or 0 (R22). -/
theorem flagByte_toNat (b : Bool) : (flagByte b).toNat = if b then 1 else 0 := by
  cases b <;> rfl

/-- The carry flag (R177). -/
theorem carryFlag_toNat (a b : Byte) : (carryFlag a b).toNat = if a.toNat + b.toNat > 255 then 1 else 0 := by
  simp only [carryFlag, flagByte_toNat, decide_eq_true_eq]

/-- The flag of no borrow (R181). -/
theorem noBorrowFlag_toNat (a b : Byte) : (noBorrowFlag a b).toNat = if a.toNat ≥ b.toNat then 1 else 0 := by
  simp only [noBorrowFlag, flagByte_toNat, decide_eq_true_eq]

/-- The difference of two bytes, modulo 256 (R178, R183). -/
theorem byte_sub_toNat (a b : Byte) : (a - b).toNat = (a.toNat + 256 - b.toNat) % 256 := by
  bv_omega

/-- The bit SHR shifts out is the remainder by 2 (R179). -/
theorem shrFlag_toNat (a : Byte) : (shrFlag a).toNat = a.toNat % 2 :=
  (BitVec.toNat_and a 1#8).trans (Nat.and_one_is_mod a.toNat)

/-- Half a byte, rounded down (R179). -/
theorem byte_shr_toNat (a : Byte) : (a >>> 1).toNat = a.toNat / 2 := by
  rw [BitVec.toNat_ushiftRight, Nat.shiftRight_eq_div_pow]

/-- The bit SHL shifts out is the quotient by 128 (R184). -/
theorem shlFlag_toNat (a : Byte) : (shlFlag a).toNat = a.toNat / 128 := by
  have ha : a.toNat < 256 := a.isLt
  refine (shrFlag_toNat (a >>> 7)).trans ?_
  rw [BitVec.toNat_ushiftRight, Nat.shiftRight_eq_div_pow]
  omega

/-- Twice a byte, modulo 256 (R184). -/
theorem byte_shl_toNat (a : Byte) : (a <<< 1).toNat = a.toNat * 2 % 256 := by
  rw [BitVec.toNat_shiftLeft, Nat.shiftLeft_eq]

/-- A masked byte is a bitwise subset of the mask (R185). -/
theorem and_or_mask (a m : Byte) : (a &&& m) ||| m = m := by
  ext k hk
  simp

/-! ## One register written, and flag-writing operations (R127, R128) -/

/-- The obligations' form of a flag-writing operation whose result and flag are known as integers. -/
theorem flagThenResult_toNat {s : State} {x : Reg} {flag result : Byte} {n f : Nat} (hn : result.toNat = n)
    (hf : flag.toNat = f) :
    ∃ t, flagThenResult s flag x result = .next t ∧ (t.reg x).toNat = n ∧ (x ≠ 15 → (t.reg 15).toNat = f) ∧
      RegsKept [x, 15] s t ∧ Frame [.v] s t := by
  obtain ⟨t, ht, hx, hvf, hregs, hframe⟩ := flagThenResult_next s flag x result
  exact ⟨t, ht, hx ▸ hn, fun h => hvf h ▸ hf, hregs, hframe⟩

/-- A draw of a random byte changes the destination and the count of draws alone (R185). -/
theorem State.setReg_draws_frame (s : State) (x : Reg) (b : Byte) (n : Nat) :
    RegsKept [x] s { s.setReg x b with draws := n } ∧ Frame [.v, .draws] s { s.setReg x b with draws := n } := by
  refine ⟨(s.setReg_frame x b).1, fun p hp => ?_⟩
  cases p <;> simp_all [Part.same]

end Sys2Proof.Machine

/-! ## The obligations -/

namespace Sys2Proof.Proofs

open Sys2Proof Sys2Proof.Machine

/-- Settles O34: each of the three is one write of `Vx` with the bitwise combination. -/
theorem logicIsBitwise : Obligations.LogicIsBitwise := by
  unfold Obligations.LogicIsBitwise
  refine fun x y s => ⟨⟨_, rfl, fun k => ?_, s.setReg_frame x _⟩, ⟨_, rfl, fun k => ?_, s.setReg_frame x _⟩,
    ⟨_, rfl, fun k => ?_, s.setReg_frame x _⟩⟩
  · rw [State.reg_setReg_same, BitVec.getLsbD_or]
  · rw [State.reg_setReg_same, BitVec.getLsbD_and]
  · rw [State.reg_setReg_same, BitVec.getLsbD_xor]

/-- Settles O35: the flag is written before the sum, which therefore remains where `X` is 15. -/
theorem addSetsCarry : Obligations.AddSetsCarry := by
  unfold Obligations.AddSetsCarry
  exact fun x y s => flagThenResult_toNat (BitVec.toNat_add _ _) (carryFlag_toNat _ _)

/-- Settles O36: the flag is written before the difference, which therefore remains where `X` is 15. -/
theorem subtractionsSetNoBorrow : Obligations.SubtractionsSetNoBorrow := by
  unfold Obligations.SubtractionsSetNoBorrow
  exact fun x y s => ⟨flagThenResult_toNat (byte_sub_toNat _ _) (noBorrowFlag_toNat _ _),
    flagThenResult_toNat (byte_sub_toNat _ _) (noBorrowFlag_toNat _ _)⟩

/-- Settles O37: the bit shifted out is a remainder or a quotient of the old value, and is written before the result. -/
theorem shiftsMoveOneBit : Obligations.ShiftsMoveOneBit := by
  unfold Obligations.ShiftsMoveOneBit
  exact fun x y s => ⟨flagThenResult_toNat (byte_shr_toNat _) (shrFlag_toNat _),
    flagThenResult_toNat (byte_shl_toNat _) (shlFlag_toNat _)⟩

/-- Settles O38: the byte written is the one of the current draw number under the mask, whatever that byte is. -/
theorem randomIsMasked : Obligations.RandomIsMasked := by
  unfold Obligations.RandomIsMasked
  intro x nn s
  have hx : ({ s.setReg x (Config.randByte s.draws &&& nn) with draws := s.draws + 1 } : State).reg x =
      Config.randByte s.draws &&& nn := s.reg_setReg_same x _
  exact ⟨_, rfl, hx, (congrArg (· ||| nn) hx).trans (and_or_mask _ nn), rfl, s.setReg_draws_frame x _ _⟩

end Sys2Proof.Proofs
end

section
/-! PROOF. Memory and the index register (spec/20_memory.md, spec/44_index_memory.md): the checked transfers, the canonical form, what
the loads and stores at `I` do in range, and the obligations about them. -/
namespace Sys2Proof.Machine

/-! ## The checked transfers (R10, R67) -/

/-- A range all of whose addresses exist is empty or ends at 4096 or below. -/
theorem range_inside {a n : Nat} (h : ∀ k, k < n → a + k ≤ 4095) : n = 0 ∨ a + n ≤ 4096 := by
  rcases n with _ | n
  · exact .inl rfl
  · have := h n (Nat.lt_succ_self n)
    omega

/-- The lowest address above 4095 of a range that has one is the larger of its start and 4096. -/
theorem lowest_outside {a b : Nat} (hab : a ≤ b) (hb : 4095 < b) (hlow : ∀ c, a ≤ c → c < b → c ≤ 4095) : b = max a 4096 := by
  by_contra hne
  have := hlow (max a 4096) (Nat.le_max_left _ _) (by omega)
  omega

/-- A read inside the address space answers the bytes. -/
theorem Memory.memRead_of_inside {m : Memory} {a n : Nat} (h : n = 0 ∨ a + n ≤ 4096) : m.memRead a n = .ok (m.readBytes a n) := by
  rcases m.memRead_cases a n with ⟨_, e⟩ | ⟨_, _, _⟩
  · exact e
  · omega

/-- A read that passes 4095 answers the lowest address outside. -/
theorem Memory.memRead_of_outside {m : Memory} {a n : Nat} (hn : 0 < n) (h : 4096 < a + n) :
    m.memRead a n = .error (max a 4096) := by
  rcases m.memRead_cases a n with ⟨_, _⟩ | ⟨_, _, e⟩
  · omega
  · exact e

/-- A write inside the address space answers the memory written. -/
theorem Memory.memWrite_of_inside {m : Memory} {a : Nat} {xs : List Byte} (h : xs.length = 0 ∨ a + xs.length ≤ 4096) :
    m.memWrite a xs = .ok (m.writeBytes a xs) := by
  rcases m.memWrite_cases a xs with ⟨_, e⟩ | ⟨hne, _, _⟩
  · exact e
  · have := List.length_pos_iff.mpr hne
    omega

/-- A write that passes 4095 answers the lowest address outside. -/
theorem Memory.memWrite_of_outside {m : Memory} {a : Nat} {xs : List Byte} (hn : 0 < xs.length) (h : 4096 < a + xs.length) :
    m.memWrite a xs = .error (max a 4096) := by
  rcases m.memWrite_cases a xs with ⟨rfl | _, _⟩ | ⟨_, _, e⟩
  · cases hn
  · omega
  · exact e

/-- The bytes written inside the address space, or an empty list of them, are read back in order. -/
theorem Memory.read_writeBytes_getElem? {m : Memory} {a k : Nat} {xs : List Byte} (h : m.wf = true)
    (hin : xs.length = 0 ∨ a + xs.length ≤ 4096) (hk : k < xs.length) : some ((m.writeBytes a xs).read (a + k)) = xs[k]? :=
  Memory.read_writeBytes_inside h (hin.resolve_left (by omega)) hk

/-! ## The canonical form determines the memory (R41) -/

/-- The first entry of a canonical memory differs from what reset leaves there, and the rest is canonical above it. -/
theorem Memory.wfAbove_cons {m : Memory} {lo : Option Nat} {a : Nat} {x : Byte}
    (h : Memory.wfAbove lo ((a, x) :: m) = true) : x ≠ resetByte a ∧ m.wfAbove (some a) = true := by
  simp only [Memory.wfAbove, Bool.and_eq_true, decide_eq_true_eq] at h
  obtain ⟨⟨_, hx⟩, hm⟩ := h
  exact ⟨hx, hm⟩

/-- An address below the first one listed reads as reset left it. -/
theorem Memory.read_cons_of_lt {m : Memory} {lo : Option Nat} {a b : Nat} {x : Byte}
    (h : Memory.wfAbove lo ((b, x) :: m) = true) (hab : a < b) : Memory.read ((b, x) :: m) a = resetByte a := by
  obtain ⟨_, hm⟩ := Memory.wfAbove_cons h
  rw [Memory.read, if_neg (Nat.ne_of_lt hab), Memory.read_of_le_bound hm (Nat.le_of_lt hab)]

/-- The first address listed reads as its entry. -/
theorem Memory.read_cons_same (m : Memory) (a : Nat) (x : Byte) : Memory.read ((a, x) :: m) a = x := if_pos rfl

/-- Canonical memories that read alike are equal: their first entries stand at the same address, since at a lower one of the two the
other would read as reset left it, and their tails read alike. -/
theorem Memory.eq_of_read_eq {m : Memory} : ∀ {m' : Memory} {lo lo' : Option Nat}, m.wfAbove lo = true →
    m'.wfAbove lo' = true → (∀ a, m.read a = m'.read a) → m = m' := by
  induction m with
  | nil =>
    intro m' lo lo' _ h' hread
    cases m' with
    | nil => rfl
    | cons c m' =>
      obtain ⟨b, y⟩ := c
      obtain ⟨hy, _⟩ := Memory.wfAbove_cons h'
      exact absurd ((hread b).trans (Memory.read_cons_same m' b y)).symm hy
  | cons c m ih =>
    intro m' lo lo' h h' hread
    obtain ⟨a, x⟩ := c
    obtain ⟨hx, hm⟩ := Memory.wfAbove_cons h
    have hxa := (Memory.read_cons_same m a x).symm.trans (hread a)
    cases m' with
    | nil => exact absurd hxa hx
    | cons c' m' =>
      obtain ⟨b, y⟩ := c'
      obtain ⟨hy, hm'⟩ := Memory.wfAbove_cons h'
      have hyb := (Memory.read_cons_same m' b y).symm.trans (hread b).symm
      rcases Nat.lt_trichotomy a b with hab | rfl | hab
      · exact absurd (hxa.trans (Memory.read_cons_of_lt h' hab)) hx
      · have hxy : x = y := hxa.trans (Memory.read_cons_same m' a y)
        have htail : ∀ c, Memory.read m c = Memory.read m' c := fun c => by
          by_cases hc : c = a
          · rw [hc, Memory.read_of_le_bound hm le_rfl, Memory.read_of_le_bound hm' le_rfl]
          · simpa only [Memory.read, if_neg hc] using hread c
        rw [hxy, ih hm hm' htail]
      · exact absurd (hyb.trans (Memory.read_cons_of_lt h hab)) hy

/-! ## The index register (R200 to R202) -/

/-- Setting `I` changes `I` alone. -/
theorem State.setI_frame (s : State) (x : Word) : Frame [.i] s (s.setI x) := by
  intro p hp
  cases p <;> simp_all [Part.same]

/-- A whole byte times 5 fits in 16 bits (R202). -/
theorem zextByte_mul_five_toNat (b : Byte) : (zextByte b * 5#16).toNat = b.toNat * 5 := by
  have hb : b.toNat < 256 := b.isLt
  rw [BitVec.toNat_mul, zextByte_toNat]
  exact Nat.mod_eq_of_lt (by simp; omega)

/-! ## Stores at `I` (R203, R204) -/

/-- A number below 256 as a byte keeps its value. -/
theorem byte_ofNat_toNat {n : Nat} (h : n < 256) : (BitVec.ofNat 8 n).toNat = n :=
  (BitVec.toNat_ofNat n 8).trans (Nat.mod_eq_of_lt h)

/-- A store at `I` of bytes that all exist: it completes, the bytes are read back, and no other byte and no other state changes. -/
theorem storeAtI_inside {s : State} {xs : List Byte} (hwf : s.mem.wf = true) (h : s.i.toNat + xs.length ≤ 4096) :
    ∃ t, storeAtI s xs = .next t ∧ (∀ k, k < xs.length → t.mem.read (s.ea k) = xs.getD k 0#8) ∧
      BytesKept (s.ea 0) xs.length s t ∧ Frame [.mem] s t := by
  rcases storeAtI_cases s xs with ⟨_, e⟩ | ⟨_, hout, _⟩
  · refine ⟨_, e, fun k hk => ?_, fun b hb => Memory.read_writeBytes_outside hb, s.mem_frame _⟩
    rw [List.getD_eq_getElem?_getD, ← Memory.read_writeBytes_inside hwf h hk]
    rfl
  · omega

/-- LD [I], Vx in range stores `V0..Vx` at `I` and changes nothing else. -/
theorem execStoreRegs_inside {x : Reg} {s : State} (hwf : s.mem.wf = true) (h : s.i.toNat + x.val ≤ 4095) :
    ∃ t, execStoreRegs x s = .next t ∧ (∀ k : Reg, k ≤ x → t.mem.read (s.ea k.val) = s.reg k) ∧
      BytesKept (s.ea 0) (x.val + 1) s t ∧ Frame [.mem] s t := by
  have hlen := s.regsUpTo_length x
  obtain ⟨t, ht, hread, hkept, hframe⟩ := storeAtI_inside (xs := s.regsUpTo x) hwf (by omega)
  refine ⟨t, ht, fun k hk => ?_, hlen ▸ hkept, hframe⟩
  exact (hread k.val (hlen ▸ Nat.lt_succ_of_le hk)).trans (s.regsUpTo_getD x k hk _)

/-! ## Loads from `I` (R205) -/

/-- Loading registers changes registers alone. -/
theorem State.setRegs_frame (s : State) (bs : List Byte) : Frame [.v] s (s.setRegs bs) := by
  intro p hp
  cases p <;> simp_all [Part.same]

/-- LD Vx, [I] in range puts the bytes at `I` into `V0..Vx`. -/
theorem execLoadRegs_inside {x : Reg} {s : State} (h : s.i.toNat + x.val ≤ 4095) :
    execLoadRegs x s = .next (s.setRegs (s.mem.readBytes (s.ea 0) (x.val + 1))) := by
  rw [execLoadRegs, Memory.memRead_of_inside (.inr (by simp only [State.ea]; omega))]

/-- The registers `V0..Vx` after a load are the bytes read. -/
theorem State.reg_setRegs_readBytes_of_le (s : State) (m : Memory) {x k : Reg} (h : k ≤ x) :
    (s.setRegs (m.readBytes (s.ea 0) (x.val + 1))).reg k = m.read (s.ea k.val) := by
  rw [State.reg_setRegs, List.getD_eq_getElem?_getD, Memory.readBytes_getElem? _ _ _ _ (Nat.lt_succ_of_le h)]
  rfl

/-- The registers above `Vx` after a load are as before. -/
theorem State.reg_setRegs_readBytes_of_gt (s : State) (m : Memory) {x k : Reg} (h : x < k) :
    (s.setRegs (m.readBytes (s.ea 0) (x.val + 1))).reg k = s.reg k := by
  rw [State.reg_setRegs, List.getD_eq_getElem?_getD, List.getElem?_eq_none (by rw [Memory.readBytes_length]; exact h)]
  rfl

end Sys2Proof.Machine

/-! ## The obligations -/

namespace Sys2Proof.Proofs

open Sys2Proof Sys2Proof.Machine

/-- Settles O22: a range whose addresses all exist passes the check, and otherwise the lowest one outside is what the check reports. -/
theorem memoryPrimitivesCheckTheWholeRange : Obligations.MemoryPrimitivesCheckTheWholeRange := by
  unfold Obligations.MemoryPrimitivesCheckTheWholeRange
  intro m a
  refine ⟨fun n hin => ?readInside, fun n b hab hbn hb hlow => ?readOutside, fun xs hwf hin => ?writeInside,
    fun xs b hab hbn hb hlow => ?writeOutside⟩
  case readInside =>
    exact ⟨_, Memory.memRead_of_inside (range_inside hin), m.readBytes_length n a, fun k hk => m.readBytes_getElem? n a k hk⟩
  case readOutside =>
    rw [lowest_outside hab hb hlow]
    exact Memory.memRead_of_outside (by omega) (by omega)
  case writeInside =>
    have hrange := range_inside hin
    have he := Memory.memWrite_of_inside (m := m) hrange
    exact ⟨_, he, Memory.wf_memWrite hwf he, fun k hk => Memory.read_writeBytes_getElem? hwf hrange hk,
      fun b hb => Memory.read_writeBytes_outside hb⟩
  case writeOutside =>
    rw [lowest_outside hab hb hlow]
    exact Memory.memWrite_of_outside (by omega) (by omega)

/-- Settles O23, by induction on the one memory along the entries of the other. -/
theorem canonicalMemoriesReadingAlikeAreEqual : Obligations.CanonicalMemoriesReadingAlikeAreEqual := by
  unfold Obligations.CanonicalMemoriesReadingAlikeAreEqual
  exact fun _ _ h h' hread => Memory.eq_of_read_eq h h' hread

/-- Settles O39: each of the three sets `I` alone; only the sum can pass 65535. -/
theorem indexRegisterWrites : Obligations.IndexRegisterWrites := by
  unfold Obligations.IndexRegisterWrites
  refine fun x nnn s => ⟨⟨_, rfl, zextImm_toNat nnn, s.setI_frame _⟩, ⟨_, rfl, ?_, s.setI_frame _⟩,
    ⟨_, rfl, zextByte_mul_five_toNat (s.reg x), s.setI_frame _⟩⟩
  rw [State.setI_i, BitVec.toNat_add, zextByte_toNat]

/-- Settles O40: LD B is a store at `I` of the three digits, each of which fits in a byte. -/
theorem decimalDigitsAreStored : Obligations.DecimalDigitsAreStored := by
  unfold Obligations.DecimalDigitsAreStored
  intro x s hwf h
  have hx : (s.reg x).toNat < 256 := (s.reg x).isLt
  have hlen : (bcdDigits (s.reg x)).length = 3 := rfl
  obtain ⟨t, ht, hread, hkept, hframe⟩ := storeAtI_inside (xs := bcdDigits (s.reg x)) hwf (Nat.succ_le_succ h)
  refine ⟨t, ht, ?_, ?_, ?_, hkept, hframe⟩
  · rw [hread 0 (by omega)]
    exact byte_ofNat_toNat (by omega)
  · rw [hread 1 (by omega)]
    exact byte_ofNat_toNat (by omega)
  · rw [hread 2 (by omega)]
    exact byte_ofNat_toNat (by omega)

/-- Settles O41: LD [I], Vx is a store at `I` of the list of registers `V0..Vx`. -/
theorem registersAreStored : Obligations.RegistersAreStored := by
  unfold Obligations.RegistersAreStored
  exact fun _ _ hwf h => execStoreRegs_inside hwf h

/-- Settles O42: the bytes read are those at `I`, and the registers past them keep their values. -/
theorem registersAreLoaded : Obligations.RegistersAreLoaded := by
  unfold Obligations.RegistersAreLoaded
  exact fun x s h => ⟨_, execLoadRegs_inside h, fun _ hk => s.reg_setRegs_readBytes_of_le s.mem hk,
    fun _ hk => s.reg_setRegs_readBytes_of_gt s.mem hk, s.setRegs_frame _⟩

/-- Settles O43: the load reads at the same addresses what the store wrote there. -/
theorem storeThenLoadRestoresRegisters : Obligations.StoreThenLoadRestoresRegisters := by
  unfold Obligations.StoreThenLoadRestoresRegisters
  intro x s t u hwf h ht hi hmem
  obtain ⟨t', ht', hread, _, _⟩ := execStoreRegs_inside hwf h
  obtain rfl := next_inj.mp (ht.symm.trans ht')
  refine ⟨_, execLoadRegs_inside (hi ▸ h), fun k hk => ?_⟩
  rw [State.reg_setRegs_readBytes_of_le u u.mem hk, hmem, ← hread k hk, State.ea, hi, State.ea]

end Sys2Proof.Proofs
end

section
/-! PROOF. Draws (spec/45_display.md): what a draw in range leaves, in the obligations' words, what a second one undoes, and the
obligations about them. -/
namespace Sys2Proof.Machine

/-! ## Two draws of one sprite (R222, R224) -/

/-- A flag's byte is 1 exactly when the flag is up. -/
theorem flagByte_eq_one_iff (b : Bool) : flagByte b = 1#8 ↔ b = true := by
  cases b <;> decide

/-- The sprite bytes depend on `I` and on what memory reads as. -/
theorem State.spriteRows_of_same {s t : State} (hi : Part.i.same s t) (hmem : Part.mem.same s t) (n : Nat) :
    t.spriteRows n = s.spriteRows n := by
  simp only [Part.same] at hi hmem
  simp only [State.spriteRows, hi, hmem]

/-- A draw that leaves `Vx` and `Vy` alone leaves the sprite that a second draw finds where the first found it. -/
theorem drawPixels_of_drawn {x y : Reg} {s t : State} (hx : x ≠ 15) (hy : y ≠ 15) (hregs : RegsKept [15] s t)
    (hframe : Frame [.v, .fb, .draw] s t) (n : Nat) :
    t.drawPixels x y (t.spriteRows n) = s.drawPixels x y (s.spriteRows n) := by
  have hi : Part.i.same s t := hframe .i (by decide)
  rw [State.spriteRows_of_same hi (hframe .mem (by decide)), State.drawPixels, State.drawPixels,
    hregs x (by simpa using hx), hregs y (by simpa using hy)]

/-- A draw in range completes: the covered cells are inverted, `VF` is the collision, the draw flag is set, nothing else changes. -/
theorem exec_drw_inside (x y : Reg) {n : Nibble} {s : State} (h : n.toNat = 0 ∨ s.i.toNat + n.toNat ≤ 4096) :
    ∃ t, exec (.drw x y n) s = .next t ∧
      (∀ p, FrameBuffer.cell t.fb p = (FrameBuffer.cell s.fb p ^^ decide (p ∈ s.drawPixels x y (s.spriteRows n.toNat)))) ∧
      t.reg 15 = flagByte ((s.drawPixels x y (s.spriteRows n.toNat)).any fun p => FrameBuffer.cell s.fb p) ∧
      t.draw = true ∧ RegsKept [15] s t ∧ Frame [.v, .fb, .draw] s t := by
  rcases execDrw_cases x y n s with ⟨_, hdraw⟩ | ⟨_, _, _⟩
  · exact hdraw
  · omega

end Sys2Proof.Machine

/-! ## The obligations -/

namespace Sys2Proof.Proofs

open Sys2Proof Sys2Proof.Machine

/-- Settles O45: the pixels a draw flips are those the sprite covers, and its collision is that one of them was lit. -/
theorem drawInvertsTheCoveredCells : Obligations.DrawInvertsTheCoveredCells := by
  unfold Obligations.DrawInvertsTheCoveredCells
  intro x y n s h
  obtain ⟨t, ht, hcell, hvf, hdraw, hregs, hframe⟩ := exec_drw_inside x y h
  refine ⟨t, ht, fun p => ?_, ?_, hdraw, hregs, hframe⟩
  · rw [hcell, ← mem_spritePixels_iff_covers, ← State.drawPixels]
    by_cases hp : p ∈ s.drawPixels x y (s.spriteRows n.toNat) <;> simp [hp]
  · have hhit : ((s.drawPixels x y (s.spriteRows n.toNat)).any fun p => FrameBuffer.cell s.fb p) = true ↔
        ∃ p, FrameBuffer.cell s.fb p = true ∧ Covers (s.reg x).toNat (s.reg y).toNat (s.spriteRows n.toNat) p := by
      simp only [List.any_eq_true, ← mem_spritePixels_iff_covers, State.drawPixels, and_comm]
    rw [hvf]
    by_cases hlit : ((s.drawPixels x y (s.spriteRows n.toNat)).any fun p => FrameBuffer.cell s.fb p) = true
    · exact .inl ⟨by rw [hlit]; rfl, hhit.mp hlit⟩
    · refine .inr ⟨by rw [Bool.eq_false_iff.mpr hlit]; rfl, fun p hp hc => hlit (hhit.mpr ⟨p, hp, hc⟩)⟩

/-- Settles O46: the second draw flips the pixels of the first, so each cell is inverted twice or not at all; and a covered cell that
is lit between the two draws is one the first turned on. -/
theorem drawingTwiceRestoresTheScreen : Obligations.DrawingTwiceRestoresTheScreen := by
  unfold Obligations.DrawingTwiceRestoresTheScreen
  intro x y n s t hx hy h ht
  obtain ⟨t', ht', hcell, _, _, hregs, hframe⟩ := exec_drw_inside x y h
  obtain rfl := next_inj.mp (ht.symm.trans ht')
  have hi : t.i = s.i := hframe .i (by decide)
  obtain ⟨u, hu, hcell', hvf, _⟩ := exec_drw_inside x y (hi.symm ▸ h)
  rw [drawPixels_of_drawn hx hy hregs hframe] at hcell' hvf
  refine ⟨u, hu, fun p => ?_, ?_⟩
  · rw [hcell', hcell, Bool.xor_assoc, Bool.xor_self, Bool.xor_false]
  · rw [hvf, flagByte_eq_one_iff, List.any_eq_true]
    refine exists_congr fun p => ?_
    rw [hcell p]
    by_cases hp : p ∈ s.drawPixels x y (s.spriteRows n.toNat) <;> simp [hp]

end Sys2Proof.Proofs
end

section
/-! PROOF. Which faults every instruction raises and what it writes otherwise (spec/60_exceptions.md section 1, spec/10_state.md
section 11), one effect for every instruction, and the obligations about the frames of an instruction and of a step. -/
namespace Sys2Proof.Machine

/-! ## The effect of an instruction (R40, R260) -/

/-- What the execute phase of `i` from `s` does: it raises the fault the table of causes gives, or raises none and writes only what
the state table lets the instruction write. -/
inductive ExecEffect (i : Instr) (s t : State) : Prop where
  | raises (c : Cause) (info : Word) (table : i.faultOf s = some (c, info)) (raised : Raised s t c info)
  | writes (table : i.faultOf s = none) (frame : Frame i.writes s t)

/-- An instruction with a data range raises exactly when the range passes 4095, with the lowest address outside (R262). -/
theorem faultOf_of_dataRange {i : Instr} {s : State} {a n : Nat} (h : i.dataRange s = some (a, n)) :
    i.faultOf s = if 1 ≤ n ∧ a + n - 1 > 4095 then some (.memoryAccess, BitVec.ofNat 16 (max a 4096)) else none := by
  cases i
  case drw | ldB | storeRegs | loadRegs => simp only [Instr.faultOf, h]
  all_goals cases h

/-- An instruction whose data range exists raises no fault. -/
theorem faultOf_of_range_inside {i : Instr} {s : State} {a n : Nat} (h : i.dataRange s = some (a, n))
    (hin : n = 0 ∨ a + n ≤ 4096) : i.faultOf s = none := by
  rw [faultOf_of_dataRange h, if_neg (by omega)]

/-- An instruction whose data range passes 4095 raises `MemoryAccessError`. -/
theorem faultOf_of_range_outside {i : Instr} {s : State} {a n : Nat} (h : i.dataRange s = some (a, n)) (hn : 0 < n)
    (hout : 4096 < a + n) : i.faultOf s = some (.memoryAccess, BitVec.ofNat 16 (max a 4096)) := by
  rw [faultOf_of_dataRange h, if_pos (by omega)]

/-- The effect of a skip. -/
theorem skipIf_effect {i : Instr} {s : State} (c : Bool) (hf : i.faultOf s = none) (hw : i.writes = [.pc]) :
    ∃ t, skipIf c s = .next t ∧ ExecEffect i s t :=
  let ⟨t, ht, _, hframe⟩ := skipIf_next c s
  ⟨t, ht, .writes hf (hw ▸ hframe)⟩

/-- The effect of a flag-writing operation. -/
theorem flagThenResult_effect {i : Instr} {s : State} (flag : Byte) (x : Reg) (result : Byte) (hf : i.faultOf s = none)
    (hw : i.writes = [.v]) : ∃ t, flagThenResult s flag x result = .next t ∧ ExecEffect i s t :=
  let ⟨t, ht, _, _, _, hframe⟩ := flagThenResult_next s flag x result
  ⟨t, ht, .writes hf (hw ▸ hframe)⟩

/-- The effect of a store at `I`. -/
theorem storeAtI_effect {i : Instr} {s : State} {xs : List Byte} (hr : i.dataRange s = some (s.i.toNat, xs.length))
    (hw : i.writes = [.mem]) : ∃ t, storeAtI s xs = .next t ∧ ExecEffect i s t := by
  rcases storeAtI_cases s xs with ⟨hin, e⟩ | ⟨hne, hout, e⟩
  · exact ⟨_, e, .writes (faultOf_of_range_inside hr (hin.imp_left (congrArg List.length))) (hw ▸ s.mem_frame _)⟩
  · exact ⟨_, e, .raises _ _ (faultOf_of_range_outside hr (List.length_pos_iff.mpr hne) hout) (s.takeFault_raised _ _)⟩

theorem execRet_effect (s : State) : ∃ t, execRet s = .next t ∧ ExecEffect .ret s t := by
  by_cases h : s.sp.val = 0
  · obtain ⟨t, ht, hr⟩ := exec_ret_of_empty s h
    exact ⟨t, ht, .raises _ _ (if_pos h) hr⟩
  · obtain ⟨t, ht, _, _, hframe⟩ := exec_ret_of_pos s (Nat.pos_of_ne_zero h)
    exact ⟨t, ht, .writes (if_neg h) hframe⟩

theorem execCall_effect (nnn : Imm12) (s : State) : ∃ t, execCall nnn s = .next t ∧ ExecEffect (.call nnn) s t := by
  by_cases h : s.sp.val = 16
  · obtain ⟨t, ht, hr⟩ := exec_call_of_full nnn s h
    exact ⟨t, ht, .raises _ _ (if_pos h) hr⟩
  · obtain ⟨t, ht, _, _, _, hframe⟩ := exec_call_of_lt nnn s (by have := s.sp.isLt; omega)
    exact ⟨t, ht, .writes (if_neg h) hframe⟩

theorem execSkp_effect (x : Reg) (s : State) : ∃ t, execSkp x s = .next t ∧ ExecEffect (.skp x) s t := by
  by_cases h : (s.reg x).toNat > 15
  · obtain ⟨t, ht, hr⟩ := execSkp_of_gt h
    exact ⟨t, ht, .raises _ _ (if_pos h) hr⟩
  · rw [execSkp_of_key (k := ⟨(s.reg x).toNat, by omega⟩) rfl]
    exact skipIf_effect _ (if_neg h) rfl

theorem execSknp_effect (x : Reg) (s : State) : ∃ t, execSknp x s = .next t ∧ ExecEffect (.sknp x) s t := by
  by_cases h : (s.reg x).toNat > 15
  · obtain ⟨t, ht, hr⟩ := execSknp_of_gt h
    exact ⟨t, ht, .raises _ _ (if_pos h) hr⟩
  · rw [execSknp_of_key (k := ⟨(s.reg x).toNat, by omega⟩) rfl]
    exact skipIf_effect _ (if_neg h) rfl

theorem execLdVxK_effect (x : Reg) (s : State) : ∃ t, execLdVxK x s = .next t ∧ ExecEffect (.ldVxK x) s t := by
  cases h : KeyLatch.first s.keys with
  | some k => exact ⟨_, execLdVxK_of_key h, .writes rfl ((s.setReg_frame x _).2.weaken (by simp [Instr.writes]))⟩
  | none => exact ⟨_, execLdVxK_of_noKey h, .writes rfl ((s.status_frame _).weaken (by simp [Instr.writes]))⟩

theorem execDrw_effect (x y : Reg) (n : Nibble) (s : State) :
    ∃ t, execDrw x y n s = .next t ∧ ExecEffect (.drw x y n) s t := by
  rcases execDrw_cases x y n s with ⟨hin, t, ht, _, _, _, _, hframe⟩ | ⟨hpos, hout, t, ht, hr⟩
  · exact ⟨t, ht, .writes (faultOf_of_range_inside rfl hin) hframe⟩
  · exact ⟨t, ht, .raises _ _ (faultOf_of_range_outside rfl hpos hout) hr⟩

theorem execLoadRegs_effect (x : Reg) (s : State) : ∃ t, execLoadRegs x s = .next t ∧ ExecEffect (.loadRegs x) s t := by
  by_cases h : s.i.toNat + x.val ≤ 4095
  · exact ⟨_, execLoadRegs_inside h, .writes (faultOf_of_range_inside rfl (.inr (by omega))) (s.setRegs_frame _)⟩
  · refine ⟨_, ?_, .raises _ _ (faultOf_of_range_outside rfl (Nat.succ_pos x.val) (by omega)) (s.takeFault_raised _ _)⟩
    rw [execLoadRegs, Memory.memRead_of_outside (Nat.succ_pos x.val) (by simp only [State.ea]; omega)]
    rfl

/-- Every instruction answers a next state, by its fault or by writing its own state alone. -/
theorem exec_effect (i : Instr) (s : State) : ∃ t, exec i s = .next t ∧ ExecEffect i s t :=
  match i with
  | .cls => ⟨_, rfl, .writes rfl (s.fb_frame _)⟩
  | .ret => execRet_effect s
  | .sys _ => ⟨_, rfl, .writes rfl (.refl _ s)⟩
  | .jp _ | .jpV0 _ => ⟨_, rfl, .writes rfl (s.setPC_frame _)⟩
  | .call nnn => execCall_effect nnn s
  | .seImm _ _ | .sneImm _ _ | .seReg _ _ | .sneReg _ _ => skipIf_effect _ rfl rfl
  | .skp x => execSkp_effect x s
  | .sknp x => execSknp_effect x s
  | .ldImm x _ | .addImm x _ | .ldReg x _ | .orReg x _ | .andReg x _ | .xorReg x _ | .ldVxDT x =>
    ⟨_, rfl, .writes rfl (s.setReg_frame x _).2⟩
  | .addReg _ _ | .sub _ _ | .shr _ _ | .subn _ _ | .shl _ _ => flagThenResult_effect _ _ _ rfl rfl
  | .rnd x _ => ⟨_, rfl, .writes rfl (s.setReg_draws_frame x _ _).2⟩
  | .ldI _ | .addI _ | .ldF _ => ⟨_, rfl, .writes rfl (s.setI_frame _)⟩
  | .drw x y n => execDrw_effect x y n s
  | .ldVxK x => execLdVxK_effect x s
  | .ldDTVx _ => ⟨_, rfl, .writes rfl (s.dt_frame _)⟩
  | .ldSTVx _ => ⟨_, rfl, .writes rfl (s.st_frame _)⟩
  | .ldB _ => storeAtI_effect rfl rfl
  | .storeRegs x => storeAtI_effect (congrArg (fun n => some (s.i.toNat, n)) (s.regsUpTo_length x).symm) rfl
  | .loadRegs x => execLoadRegs_effect x s

/-- Whatever state an instruction answers is one of the two effects. -/
theorem effect_of_exec {i : Instr} {s t : State} (h : exec i s = .next t) : ExecEffect i s t := by
  obtain ⟨t', ht', heffect⟩ := exec_effect i s
  exact next_inj.mp (h.symm.trans ht') ▸ heffect

/-- An instruction that the table of causes gives no fault writes only its own state. -/
theorem exec_frame {i : Instr} {s t : State} (hf : i.faultOf s = none) (h : exec i s = .next t) : Frame i.writes s t := by
  cases effect_of_exec h with
  | raises c info htable _ => cases hf.symm.trans htable
  | writes _ hframe => exact hframe

/-- An instruction that does not leave `Faulted` writes only its own state. -/
theorem exec_frame_of_not_faulted {i : Instr} {s t : State} (h : exec i s = .next t) (ht : t.status ≠ .faulted) :
    Frame i.writes s t := by
  cases effect_of_exec h with
  | raises c info _ hraised => exact absurd hraised.1 ht
  | writes _ hframe => exact hframe

/-- LD Vx, K alone may write `STATUS` (R38). -/
theorem eq_ldVxK_of_writes_status {i : Instr} (h : Part.status ∈ i.writes) : ∃ x, i = .ldVxK x := by
  cases i
  case ldVxK x => exact ⟨x, rfl⟩
  all_goals simp [Instr.writes] at h

/-- No instruction writes `FAULT` but by raising (R39). -/
theorem fault_not_mem_writes (i : Instr) : Part.fault ∉ i.writes := by
  cases i <;> simp [Instr.writes]

/-! ## The frame of a step (R121 to R125) -/

/-- The phases before the execute phase write `PC`, `OPCODE` and the pulse. -/
theorem State.beginExecute_frame (s : State) (op : Word) : Frame [.pc, .opcode, .pulse] s (s.beginExecute op) := by
  intro p hp
  cases p <;> simp_all [Part.same]

/-- The end of a step keeps the status the execute phase left (R125). -/
theorem State.endStep_status (s u : State) : (s.endStep u).status = u.status := by
  rcases s.endStep_cases u with ⟨_, e⟩ | ⟨_, e⟩ | ⟨_, e⟩ <;> rw [e]
  exact u.tick_status

/-- The end of a step whose execute phase did not fault is what that phase left, ticked or not. -/
theorem State.endStep_of_not_faulted (s : State) {u : State} (hu : u.status ≠ .faulted) :
    Frame [.dt, .st, .pulse] u (s.endStep u) ∧ (s.endStep u = u.tick ∨ s.endStep u = u) := by
  rcases s.endStep_cases u with ⟨_, e⟩ | ⟨_, e⟩ | ⟨hfaulted, _⟩
  · exact ⟨e ▸ u.tick_frame, .inl e⟩
  · exact ⟨e.symm ▸ .refl _ u, .inr e⟩
  · exact absurd hfaulted hu

/-- A step from `Running` that fetched `i` is the end of the step around what `i` left (R124, R125). -/
theorem step_of_exec {s u : State} {op : Word} {i : Instr} (hs : s.status = .running) (hf : s.fetch = .ok op)
    (hd : decodeWord op = .ok i) (hu : exec i (s.beginExecute op) = .next u) : step s = .next (s.endStep u) := by
  simp only [step, hs, hf, hd, hu]

/-- A step from `Running` that fetched `i` and did not fault: the execute phase it went through. -/
theorem step_exec_of_not_faulted {s t : State} {op : Word} {i : Instr} (hs : s.status = .running) (hf : s.fetch = .ok op)
    (hd : decodeWord op = .ok i) (h : step s = .next t) (ht : t.status ≠ .faulted) :
    ∃ u, exec i (s.beginExecute op) = .next u ∧ u.status ≠ .faulted ∧ Frame i.writes (s.beginExecute op) u ∧
      Frame [.dt, .st, .pulse] u t := by
  obtain ⟨u, hu, _⟩ := exec_effect i (s.beginExecute op)
  obtain rfl := next_inj.mp (h.symm.trans (step_of_exec hs hf hd hu))
  rw [State.endStep_status] at ht
  exact ⟨u, hu, ht, exec_frame_of_not_faulted hu ht, (s.endStep_of_not_faulted ht).1⟩

/-- The frame of a step that does not fault. -/
theorem step_frame {s t : State} {op : Word} {i : Instr} (hs : s.status = .running) (hf : s.fetch = .ok op)
    (hd : decodeWord op = .ok i) (h : step s = .next t) (ht : t.status ≠ .faulted) :
    Frame (i.writes ++ [.pc, .opcode, .dt, .st, .pulse]) s t := by
  obtain ⟨u, _, _, hexec, hend⟩ := step_exec_of_not_faulted hs hf hd h ht
  refine ((s.beginExecute_frame op).trans (hexec.trans hend)).weaken fun p hp => ?_
  simp only [List.mem_append, List.mem_cons, List.not_mem_nil, or_false] at hp ⊢
  tauto

/-- The draw flag is written by DRW alone (R32). -/
theorem eq_drw_of_writes_draw {i : Instr} (h : Part.draw ∈ i.writes) : ∃ x y n, i = .drw x y n := by
  cases i
  case drw x y n => exact ⟨x, y, n, rfl⟩
  all_goals simp [Instr.writes] at h

/-- A DRW that does not fault leaves the draw flag set (R225). -/
theorem exec_drw_draw {x y : Reg} {n : Nibble} {s t : State} (h : exec (.drw x y n) s = .next t) (ht : t.status ≠ .faulted) :
    t.draw = true := by
  rcases execDrw_cases x y n s with ⟨_, t', ht', _, _, hdraw, _⟩ | ⟨_, _, t', ht', hraised, _⟩
  · exact next_inj.mp (h.symm.trans ht') ▸ hdraw
  · exact absurd (next_inj.mp (h.symm.trans ht') ▸ hraised) ht

/-- An instruction that changes the draw flag without faulting is a DRW and sets it. -/
theorem exec_draw_of_ne {i : Instr} {s t : State} (h : exec i s = .next t) (ht : t.status ≠ .faulted) (hne : t.draw ≠ s.draw) :
    t.draw = true ∧ ∃ x y n, i = .drw x y n := by
  by_cases hw : Part.draw ∈ i.writes
  · obtain ⟨x, y, n, rfl⟩ := eq_drw_of_writes_draw hw
    exact ⟨exec_drw_draw h ht, x, y, n, rfl⟩
  · exact absurd (exec_frame_of_not_faulted h ht .draw hw) hne

end Sys2Proof.Machine

/-! ## The obligations -/

namespace Sys2Proof.Proofs

open Sys2Proof Sys2Proof.Machine

/-- Settles O13, by the effect of every instruction: the fault of the table, or a frame that leaves out `FAULT`, and `STATUS` for all
but LD Vx, K, which sets it only to start the wait. -/
theorem execRaisesExactlyTheTabledFaults : Obligations.ExecRaisesExactlyTheTabledFaults := by
  unfold Obligations.ExecRaisesExactlyTheTabledFaults
  intro i s
  obtain ⟨t, ht, heffect⟩ := exec_effect i s
  refine ⟨t, ht, ?_⟩
  cases heffect with
  | raises c info htable hraised => simp only [htable]; exact hraised
  | writes htable hframe =>
    simp only [htable]
    refine ⟨hframe .fault (fault_not_mem_writes i), ?_⟩
    by_cases hstatus : Part.status ∈ i.writes
    · obtain ⟨x, rfl⟩ := eq_ldVxK_of_writes_status hstatus
      cases hk : KeyLatch.first s.keys with
      | some k => exact .inl (next_inj.mp (ht.symm.trans (execLdVxK_of_key hk)) ▸ rfl)
      | none => exact .inr ⟨next_inj.mp (ht.symm.trans (execLdVxK_of_noKey hk)) ▸ rfl, x, rfl⟩
    · exact .inl (hframe .status hstatus)

/-- Settles O14: of the two effects of an instruction, the fault is the one the table of causes gives. -/
theorem execWritesOnlyItsState : Obligations.ExecWritesOnlyItsState := by
  unfold Obligations.ExecWritesOnlyItsState
  exact fun _ _ _ hf h => exec_frame hf h

/-- Settles O15: the fetch writes `PC`, `OPCODE` and the pulse, the instruction its own state, and the end of the step the timers and
the pulse. -/
theorem stepWritesOnlyItsState : Obligations.StepWritesOnlyItsState := by
  unfold Obligations.StepWritesOnlyItsState
  exact fun _ _ _ _ hs hf hd h ht => step_frame hs hf hd h ht

end Sys2Proof.Proofs
end

section
/-! PROOF. The step around the instruction (spec/40_step_cycle.md): where `PC` goes, how a step faults, what runs of steps do that
change little, and the obligations about them. -/
namespace Sys2Proof.Machine

/-! ## Decoding two bytes (R90) -/

/-- Two bytes that decode to an instruction are a word that does. -/
theorem decodeWord_of_decode_pair {hi lo : Byte} {i : Instr} (h : decode [hi, lo] = .ok (i, [])) :
    decodeWord (wordOfBytes hi lo) = .ok i := by
  simp only [decode] at h
  split at h <;> cases h
  assumption

/-! ## Fetching (R121) -/

/-- A fetch at or below 4094 answers the big-endian word at `PC`. -/
theorem State.fetch_of_pc_le {s : State} (h : s.pc.toNat ≤ 4094) :
    s.fetch = .ok (wordOfBytes (s.mem.read s.pc.toNat) (s.mem.read (s.pc.toNat + 1))) := by
  rcases s.fetch_cases with ⟨_, e⟩ | ⟨_, _⟩
  · exact e
  · omega

/-- A fetch that answers a word was made at or below 4094. -/
theorem State.pc_le_of_fetch {s : State} {op : Word} (h : s.fetch = .ok op) : s.pc.toNat ≤ 4094 := by
  rcases s.fetch_cases with ⟨hpc, _⟩ | ⟨_, e⟩
  · exact hpc
  · cases h.symm.trans e

/-! ## Where an instruction leaves `PC` (R25) -/

/-- An instruction that does not write `PC` leaves it at the next word. -/
theorem nextPC_of_not_writes {i : Instr} (s : State) (a : Nat) (h : Part.pc ∉ i.writes) : i.nextPC s a = a + 2 := by
  cases i
  case ret | jp | call | seImm | sneImm | seReg | sneReg | jpV0 | skp | sknp => simp [Instr.writes] at h
  all_goals rfl

/-- RET with an entry on the stack goes to the top entry. -/
theorem nextPC_ret_of_pos {s : State} (h : 0 < s.sp.val) (a : Nat) :
    Instr.nextPC .ret s a = (s.stack[s.sp.val - 1]'(by omega)).toNat :=
  dif_pos h

/-- Advancing a `PC` that a word can be fetched from does not wrap. -/
theorem pc_add_two_toNat {a : Word} (h : a.toNat ≤ 4094) : (a + 2#16).toNat = a.toNat + 2 := by
  bv_omega

/-- A skip around an execute phase leaves `PC` two words on when taken and at the next word when not (R164). -/
theorem skipIf_pc {s u : State} {op : Word} {c : Bool} (hpc : s.pc.toNat ≤ 4094) (h : skipIf c (s.beginExecute op) = .next u) :
    u.pc.toNat = if c then s.pc.toNat + 4 else s.pc.toNat + 2 := by
  obtain ⟨t, ht, htpc, _⟩ := skipIf_next c (s.beginExecute op)
  obtain rfl := next_inj.mp (h.symm.trans ht)
  rw [htpc, State.beginExecute_pc]
  cases c
  · exact pc_add_two_toNat hpc
  · simp only [if_true]
    bv_omega

/-- A key number's entry in the latch as a list. -/
theorem KeyLatch.toList_getElem? (keys : KeyLatch) {x : Byte} (h : x.toNat < 16) :
    keys.toList[x.toNat]? = some keys[x.toNat] := by
  simp [h]

/-- An instruction that did not leave `Faulted` did not raise. -/
theorem not_raised_of_not_faulted {i : Instr} {s u : State} {c : Cause} {info : Word} (h : exec i s = .next u)
    (hu : u.status ≠ .faulted) : ¬ ∃ t, exec i s = .next t ∧ Raised s t c info := by
  rintro ⟨t, ht, hfaulted, _⟩
  exact hu (next_inj.mp (h.symm.trans ht) ▸ hfaulted)

/-- A CALL that did not fault found room on the stack. -/
theorem sp_lt_of_exec_call {nnn : Imm12} {s u : State} (h : exec (.call nnn) s = .next u) (hu : u.status ≠ .faulted) :
    s.sp.val < 16 := by
  have hle := s.sp.isLt
  have hfull := mt (exec_call_of_full nnn s) (not_raised_of_not_faulted h hu)
  omega

/-- An instruction that does not fault leaves `PC` where the rule on `PC` says. -/
theorem exec_pc {i : Instr} {s u : State} {op : Word} (hpc : s.pc.toNat ≤ 4094) (h : exec i (s.beginExecute op) = .next u)
    (hu : u.status ≠ .faulted) : u.pc.toNat = i.nextPC s s.pc.toNat := by
  by_cases hw : Part.pc ∈ i.writes
  · cases i
    case jp nnn => cases h; exact zextImm_toNat nnn
    case jpV0 nnn => cases h; exact zextByte_add_zextImm_toNat (s.reg 0) nnn
    case call nnn =>
      obtain ⟨t, ht, htpc, _⟩ := exec_call_of_lt nnn (s.beginExecute op) (sp_lt_of_exec_call h hu)
      exact next_inj.mp (h.symm.trans ht) ▸ htpc
    case ret =>
      have hsp : 0 < s.sp.val :=
        Nat.pos_of_ne_zero (mt (exec_ret_of_empty (s.beginExecute op)) (not_raised_of_not_faulted h hu))
      obtain ⟨t, ht, htpc, _⟩ := exec_ret_of_pos (s.beginExecute op) hsp
      obtain rfl := next_inj.mp (h.symm.trans ht)
      exact (congrArg BitVec.toNat htpc).trans (nextPC_ret_of_pos hsp _).symm
    case seImm | seReg => exact (skipIf_pc hpc h).trans (if_congr beq_iff_eq rfl rfl)
    case sneImm | sneReg => exact (skipIf_pc hpc h).trans (if_congr bne_iff_ne rfl rfl)
    case skp x =>
      have hx : (s.reg x).toNat < 16 :=
        Nat.lt_of_not_le (mt (execSkp_of_gt (s := s.beginExecute op)) (not_raised_of_not_faulted h hu))
      refine (skipIf_pc hpc ((execSkp_of_key (s := s.beginExecute op) (k := ⟨_, hx⟩) rfl).symm.trans h)).trans
        (if_congr ?_ rfl rfl)
      rw [KeyLatch.toList_getElem? s.keys hx, Option.some.injEq]
      exact Iff.rfl
    case sknp x =>
      have hx : (s.reg x).toNat < 16 :=
        Nat.lt_of_not_le (mt (execSknp_of_gt (s := s.beginExecute op)) (not_raised_of_not_faulted h hu))
      refine (skipIf_pc hpc ((execSknp_of_key (s := s.beginExecute op) (k := ⟨_, hx⟩) rfl).symm.trans h)).trans
        (if_congr ?_ rfl rfl)
      rw [KeyLatch.toList_getElem? s.keys hx, Option.some.injEq, Bool.not_eq_true']
      exact Iff.rfl
    all_goals simp [Instr.writes] at hw
  · have hsame : u.pc = s.pc + 2#16 := exec_frame_of_not_faulted h hu .pc hw
    rw [hsame, nextPC_of_not_writes s _ hw, pc_add_two_toNat hpc]

/-! ## How a step faults (R271) -/

/-- A step into `Faulted` is one fault taken in the state the step began in, at its `PC`, with the word fetched if one was. -/
theorem step_fault_cases {s t : State} (h : step s = .next t) (hs : s.status ≠ .faulted) (ht : t.status = .faulted) :
    ∃ c info fop, t = s.noPulse.takeFault c info s.pc fop ∧
      ((4094 < s.pc.toNat ∧ fop = none ∧ c = .memoryAccess) ∨ ∃ op, s.fetch = .ok op ∧ fop = some op) := by
  rcases step_cases h with ⟨hs', _⟩ | ⟨hs', rfl⟩ | ⟨_, hpc, rfl⟩ | ⟨_, op, hf, _, rfl⟩ | ⟨hrun, op, i, u, hf, hd, hu, rfl⟩
  · exact absurd hs' hs
  · rcases resume_outcome hs' with ⟨_, hr, _⟩ | ⟨_, hr, _⟩ <;> cases ht.symm.trans hr
  · exact ⟨.memoryAccess, _, none, rfl, .inl ⟨hpc, rfl, rfl⟩⟩
  · exact ⟨.unknownOpcode, op, some op, rfl, .inr ⟨op, hf, rfl⟩⟩
  · rw [State.endStep_status] at ht
    cases execEnd_of_exec hu with
    | completes hstatus _ _ _ => cases ht.symm.trans (hstatus.trans hrun)
    | waits _ _ _ hwait => rw [hwait] at ht; cases ht
    | raises c info hraised =>
      exact ⟨c, info, some op, next_inj.mp (h.symm.trans (step_of_exec_raised hrun hf hd hu hraised)), .inr ⟨op, hf, rfl⟩⟩

/-! ## Runs that stand still (R131, R246) -/

/-- A run from a state whose step answers a state that steps to itself ends in that state. -/
theorem run_of_step_fixed {s t : State} (h : step s = .next t) (hfix : step t = .next t) :
    ∀ n, core.run (n + 1) s = .next t := by
  intro n
  induction n generalizing s with
  | zero => exact core_run_succ h
  | succ n ih => exact (core_run_succ h).trans (ih hfix)

/-- A step in `Faulted` clears the pulse and does nothing else. -/
theorem step_of_faulted {s : State} (hs : s.status = .faulted) : step s = .next s.noPulse := by
  simp only [step, hs]

/-- A step in `AwaitingKey` is the resume check. -/
theorem step_of_awaiting {s : State} (hs : s.status = .awaitingKey) : step s = .next s.noPulse.resume := by
  simp only [step, hs]

/-- With no key pressed the resume check does nothing. -/
theorem State.resume_of_noKey {s : State} (h : KeyLatch.first s.keys = none) : s.resume = s := by
  rw [State.resume, h]

/-- With a key pressed the resume check takes the lowest one, returns to `Running` and ticks. -/
theorem State.resume_of_key {s : State} {k : Reg} (h : KeyLatch.first s.keys = some k) :
    s.resume = State.tick { s.setReg (fieldX s.opcode) (keyCode k) with status := .running } := by
  rw [State.resume, h]

/-- The resume check leaves the draw flag alone. -/
theorem State.resume_draw (s : State) : s.resume.draw = s.draw := by
  rcases s.resume_cases with ⟨_, _, e⟩ | ⟨_, e⟩ <;> rw [e]
  rfl

/-! ## A jump to itself (R317) -/

/-- The state after one step of a jump to itself: the fetch and the tick are all that happened. -/
def State.selfJumped (s : State) (op : Word) : State := State.tick { s with pulse := false, opcode := op }

/-- A step that fetches a jump to its own address lets the timers run down and does nothing else but record the fetch. -/
theorem step_self_jump {s : State} {op : Word} {nnn : Imm12} (hs : s.status = .running) (hf : s.fetch = .ok op)
    (hd : decodeWord op = .ok (.jp nnn)) (hpc : s.pc.toNat = nnn.toNat) : step s = .next (s.selfJumped op) := by
  have htarget : zextImm nnn = s.pc := BitVec.eq_of_toNat_eq ((zextImm_toNat nnn).trans hpc.symm)
  rw [step_of_exec_running hs hf hd rfl hs, htarget]
  rfl

/-- A jump to itself changes the timers, the pulse and `OPCODE` alone. -/
theorem State.selfJumped_frame (s : State) (op : Word) : Frame [.dt, .st, .pulse, .opcode] s (s.selfJumped op) := by
  intro p hp
  cases p <;> simp_all [Part.same, State.selfJumped, State.reg]

/-- The timers after one step of a jump to itself. -/
theorem State.selfJumped_timers (s : State) (op : Word) :
    (s.selfJumped op).dt.toNat = s.dt.toNat - 1 ∧ (s.selfJumped op).st.toNat = s.st.toNat - 1 :=
  State.tick_timers _

/-- The pulse after one step of a jump to itself. -/
theorem State.selfJumped_pulse (s : State) (op : Word) : (s.selfJumped op).pulse = true ↔ s.st.toNat = 1 :=
  State.tick_pulse_iff rfl

/-- A run of a jump to itself, by induction on its length: the first step leaves a state that makes the same jump. -/
theorem run_self_jump {op : Word} {nnn : Imm12} (hd : decodeWord op = .ok (.jp nnn)) : ∀ (n : Nat) (s : State),
    s.status = .running → s.fetch = .ok op → s.pc.toNat = nnn.toNat →
    ∃ t, core.run (n + 1) s = .next t ∧ t.dt.toNat = s.dt.toNat - (n + 1) ∧ t.st.toNat = s.st.toNat - (n + 1) ∧
      t.opcode = op ∧ (t.pulse = true ↔ s.st.toNat = n + 1) ∧ Frame [.dt, .st, .pulse, .opcode] s t := by
  intro n
  induction n with
  | zero =>
    intro s hs hf hpc
    obtain ⟨hdt, hst⟩ := s.selfJumped_timers op
    exact ⟨_, core_run_succ (step_self_jump hs hf hd hpc), hdt, hst, rfl, s.selfJumped_pulse op, s.selfJumped_frame op⟩
  | succ n ih =>
    intro s hs hf hpc
    obtain ⟨hdt, hst⟩ := s.selfJumped_timers op
    obtain ⟨t, ht, htdt, htst, hop, hpulse, hframe⟩ := ih (s.selfJumped op) hs hf hpc
    refine ⟨t, (core_run_succ (step_self_jump hs hf hd hpc)).trans ht, by omega, by omega, hop, ?_,
      ((s.selfJumped_frame op).trans hframe).weaken (by decide)⟩
    rw [hpulse, hst]
    omega

end Sys2Proof.Machine

/-! ## The obligations -/

namespace Sys2Proof.Proofs

open Sys2Proof Sys2Proof.Machine

/-- Settles O6: below 4095 the fetch answers the word of the two bytes, and the end of the step goes by the status the execute phase
left. -/
theorem stepRunsTheDecodedInstruction : Obligations.StepRunsTheDecodedInstruction := by
  unfold Obligations.StepRunsTheDecodedInstruction
  intro s i hs hpc hd
  obtain ⟨u, hu, _⟩ := exec_effect i (s.beginExecute (wordOfBytes (s.mem.read s.pc.toNat) (s.mem.read (s.pc.toNat + 1))))
  rw [step_of_exec hs (State.fetch_of_pc_le hpc) (decodeWord_of_decode_pair hd) hu]
  simp only [State.beginExecute] at hu
  rcases s.endStep_cases u with ⟨hstatus, e⟩ | ⟨hstatus, e⟩ | ⟨hstatus, e⟩
  · simp only [hu, e, hstatus]
  · simp only [hu, e, hstatus]
  · simp only [hu, e, hstatus, State.noPulse]

/-- Settles O8: the step keeps the `PC` its execute phase left, which is where the rule on `PC` says. -/
theorem stepLeavesPcWhereTheInstructionSays : Obligations.StepLeavesPcWhereTheInstructionSays := by
  unfold Obligations.StepLeavesPcWhereTheInstructionSays
  intro s t op i hs hf hd h ht
  obtain ⟨u, hu, hnf, _, hend⟩ := step_exec_of_not_faulted hs hf hd h ht
  have hpc : t.pc = u.pc := hend .pc (by decide)
  rw [hpc, exec_pc (State.pc_le_of_fetch hf) hu hnf]

/-- Settles O9: a step into `Faulted` is one fault taken in the state the step began in. -/
theorem faultsArePrecise : Obligations.FaultsArePrecise := by
  unfold Obligations.FaultsArePrecise
  intro s t hs h ht
  obtain ⟨c, info, fop, rfl, hfop⟩ := step_fault_cases h hs ht
  obtain ⟨_, _, _, hpulse, hframe⟩ := StepFaulted.of_takeFault hs c info s.pc fop
  exact ⟨hframe, hpulse, _, rfl, rfl, hfop⟩

/-- Settles O10: a step in `Faulted` only clears the pulse, and the next one has nothing left to clear. -/
theorem faultedIsTerminal : Obligations.FaultedIsTerminal := by
  unfold Obligations.FaultedIsTerminal
  exact fun n s hs => ⟨_, run_of_step_fixed (step_of_faulted hs) (step_of_faulted (s := s.noPulse) hs) n, s.noPulse_frame, rfl⟩

/-- Settles O11, by the resume check: the key it finds is the lowest pressed one, and with none it leaves a state that steps to
itself. -/
theorem awaitingKeyStep : Obligations.AwaitingKeyStep := by
  unfold Obligations.AwaitingKeyStep
  intro s hs
  constructor
  · intro k hk hlow
    have e := step_of_awaiting hs
    rw [State.resume_of_key (s := s.noPulse) (KeyLatch.first_eq_some.mpr ⟨hk, hlow⟩)] at e
    obtain ⟨hregs, hframe⟩ := s.noPulse.setReg_frame (fieldX s.opcode) (keyCode k)
    obtain ⟨hdt, hst⟩ := State.tick_timers { s.noPulse.setReg (fieldX s.opcode) (keyCode k) with status := .running }
    refine ⟨_, e, rfl, ?_, hregs, hdt, hst, State.tick_pulse_iff rfl,
      (s.noPulse_frame.trans (hframe.trans ((State.status_frame _ _).trans (State.tick_frame _)))).weaken (by decide)⟩
    exact (congrArg BitVec.toNat (s.noPulse.reg_setReg_same _ _)).trans (keyCode_toNat k)
  · intro hnone n
    have hk : KeyLatch.first s.noPulse.keys = none := KeyLatch.first_eq_none.mpr hnone
    have e : step s = .next s.noPulse := (step_of_awaiting hs).trans (next_inj.mpr (State.resume_of_noKey hk))
    have efix : step s.noPulse = .next s.noPulse :=
      (step_of_awaiting (s := s.noPulse) hs).trans (next_inj.mpr (State.resume_of_noKey hk))
    exact ⟨_, run_of_step_fixed e efix n, rfl, s.noPulse_frame⟩

/-- Settles O20, by the four outcomes of a step: the one that ticks ends in `Running`. -/
theorem noTickWithoutCompletion : Obligations.NoTickWithoutCompletion := by
  unfold Obligations.NoTickWithoutCompletion
  intro s t h ht
  rcases step_outcome h with ⟨_, hrun, _⟩ | ⟨_, _, hdt, hst, hpulse, _⟩ | ⟨_, _, _, hpulse, hframe⟩ | ⟨_, hpulse, hframe⟩
  · exact absurd hrun ht
  · exact ⟨hdt, hst, hpulse⟩
  · exact ⟨hframe .dt (by decide), hframe .st (by decide), hpulse⟩
  · exact ⟨hframe .dt (by decide), hframe .st (by decide), hpulse⟩

/-- Settles O24: the store leaves V0 and V1 at `I` and the byte after, which is where `PC` stands when the step is over. -/
theorem storedBytesAreFetchedNext : Obligations.StoredBytesAreFetchedNext := by
  unfold Obligations.StoredBytesAreFetchedNext
  intro s op x hs hwf hf hd hx hi hin
  obtain ⟨u, hu, hread, _, hframe⟩ := execStoreRegs_inside (s := s.beginExecute op) hwf hin
  have hrun : u.status = .running := (hframe .status (by decide)).trans hs
  have hpc : u.tick.pc = s.i := (hframe .pc (by decide)).trans hi.symm
  have h0 : u.tick.mem.read s.i.toNat = s.reg 0 := hread 0 (Fin.zero_le x)
  have h1 : u.tick.mem.read (s.i.toNat + 1) = s.reg 1 := hread 1 hx
  refine ⟨_, step_of_exec_running hs hf hd hu hrun, hrun, ?_⟩
  rw [State.fetch_of_pc_le (by rw [hpc]; omega), hpc, h0, h1]

/-- Settles O30, by induction on the number of steps. -/
theorem jumpToSelfOnlyRunsTheTimersDown : Obligations.JumpToSelfOnlyRunsTheTimersDown := by
  unfold Obligations.JumpToSelfOnlyRunsTheTimersDown
  exact fun n s op nnn hs hf hd hpc => run_self_jump hd n s hs hf hpc

/-- Settles O48: the draw flag is outside the frame of every step but one that executes a DRW without a fault, which sets it. -/
theorem onlyDrawSetsTheDrawFlag : Obligations.OnlyDrawSetsTheDrawFlag := by
  unfold Obligations.OnlyDrawSetsTheDrawFlag
  intro s t h hne
  rcases step_cases h with ⟨_, rfl⟩ | ⟨_, rfl⟩ | ⟨_, _, rfl⟩ | ⟨_, _, _, _, rfl⟩ | ⟨hs, op, i, u, hf, hd, hu, rfl⟩
  · exact absurd rfl hne
  · exact absurd s.noPulse.resume_draw hne
  · exact absurd rfl hne
  · exact absurd rfl hne
  · by_cases hfaulted : u.status = .faulted
    · simp only [State.endStep, hfaulted] at hne
      exact absurd rfl hne
    · have hdraw : (s.endStep u).draw = u.draw := (s.endStep_of_not_faulted hfaulted).1 .draw (by decide)
      rw [hdraw] at hne ⊢
      obtain ⟨hset, x, y, n, rfl⟩ := exec_draw_of_ne hu hfaulted hne
      exact ⟨hset, hs, op, x, y, n, hf, hd⟩

end Sys2Proof.Proofs
end

section
/-! PROOF. The invariant (spec/10_state.md, spec/60_exceptions.md section 4): what each instruction does to the pieces of state it speaks
of, and the obligations about steps, the reset state and the host's operations. -/
namespace Sys2Proof.Machine

/-! ## The pieces of the invariant under an instruction -/

/-- A skip leaves memory as it is. -/
theorem skipIf_mem {c : Bool} {s t : State} (h : skipIf c s = .next t) : t.mem = s.mem := by
  obtain rfl := next_inj.mp h
  cases c <;> rfl

/-- An instruction that is no store leaves memory as it is, data and not only contents. -/
theorem exec_mem_of_not_writes {i : Instr} {s t : State} (hw : Part.mem ∉ i.writes) (h : exec i s = .next t) : t.mem = s.mem := by
  cases i
  case ldB | storeRegs => simp [Instr.writes] at hw
  case ret => rcases s.popped_cases with ⟨_, e⟩ | ⟨_, e⟩ <;> rw [exec, execRet, e] at h <;> cases h <;> rfl
  case call => rcases s.pushed_cases s.pc with ⟨_, e⟩ | ⟨_, e⟩ <;> rw [exec, execCall, e] at h <;> cases h <;> rfl
  case seImm | sneImm | seReg | sneReg => exact skipIf_mem h
  case skp =>
    rw [exec, execSkp] at h
    split at h
    · exact skipIf_mem h
    · cases h; rfl
  case sknp =>
    rw [exec, execSknp] at h
    split at h
    · exact skipIf_mem h
    · cases h; rfl
  case ldVxK => rw [exec, execLdVxK] at h; split at h <;> cases h <;> rfl
  case drw => rw [exec, execDrw] at h; split at h <;> cases h <;> rfl
  case loadRegs => rw [exec, execLoadRegs] at h; split at h <;> cases h <;> rfl
  all_goals cases h; rfl

/-- A store at `I` keeps the canonical form, whether it completes or raises. -/
theorem storeAtI_mem_wf {s t : State} {xs : List Byte} (hwf : s.mem.wf = true) (h : storeAtI s xs = .next t) :
    t.mem.wf = true := by
  unfold storeAtI at h
  split at h <;> cases h
  · exact Memory.wf_memWrite hwf ‹_›
  · exact hwf

/-- LD B and LD [I], Vx are the instructions that write memory, and both are stores at `I` (R41). -/
theorem exec_eq_storeAtI {i : Instr} (hw : Part.mem ∈ i.writes) (s : State) : ∃ xs, exec i s = storeAtI s xs := by
  cases i
  case ldB x => exact ⟨_, rfl⟩
  case storeRegs x => exact ⟨_, rfl⟩
  all_goals simp [Instr.writes] at hw

/-- Every instruction keeps the canonical form of memory. -/
theorem exec_mem_wf {i : Instr} {s t : State} (hwf : s.mem.wf = true) (h : exec i s = .next t) : t.mem.wf = true := by
  by_cases hw : Part.mem ∈ i.writes
  · obtain ⟨xs, e⟩ := exec_eq_storeAtI hw s
    exact storeAtI_mem_wf hwf (e.symm.trans h)
  · rw [exec_mem_of_not_writes hw h]
    exact hwf

/-- CALL alone writes stack entries (R27). -/
theorem eq_call_of_writes_stack {i : Instr} (h : Part.stack ∈ i.writes) : ∃ nnn, i = .call nnn := by
  cases i
  case call nnn => exact ⟨nnn, rfl⟩
  all_goals simp [Instr.writes] at h

/-- An instruction that does not fault keeps a bound of the stack entries that the advanced `PC` meets too: CALL pushes that. -/
theorem exec_stack_le {i : Instr} {s t : State} {b : Nat} (h : exec i s = .next t) (ht : t.status ≠ .faulted)
    (hpc : s.pc.toNat ≤ b) (hstack : ∀ k : Fin 16, (s.stack[k.val]).toNat ≤ b) : ∀ k : Fin 16, (t.stack[k.val]).toNat ≤ b := by
  intro k
  by_cases hw : Part.stack ∈ i.writes
  · obtain ⟨nnn, rfl⟩ := eq_call_of_writes_stack hw
    obtain ⟨t', ht', _, _, hentry, _⟩ := exec_call_of_lt nnn s (sp_lt_of_exec_call h ht)
    obtain rfl := next_inj.mp (h.symm.trans ht')
    rw [hentry k]
    split
    · exact hpc
    · exact hstack k
  · have hsame : t.stack[k.val] = s.stack[k.val] := exec_frame_of_not_faulted h ht .stack hw k
    exact hsame ▸ hstack k

/-- From a fetch address a skip, taken or not, goes to at most 0x10FE. -/
theorem skip_target_le {a : Nat} {c : Prop} [Decidable c] (ha : a ≤ 4094) : (if c then a + 4 else a + 2) ≤ 0x10FE := by
  split <;> omega

/-- From a fetch address and with stack entries in the bounds of the invariant, every next `PC` is at most 0x10FE (R25). -/
theorem nextPC_le (i : Instr) {s : State} {a : Nat} (ha : a ≤ 4094) (hstack : ∀ k : Fin 16, (s.stack[k.val]).toNat ≤ 4096) :
    i.nextPC s a ≤ 0x10FE := by
  cases i
  case jp nnn | call nnn => exact nnn.isLt.le.trans (by decide)
  case jpV0 nnn => exact (Nat.add_le_add (Nat.le_of_lt_succ (s.reg 0).isLt) (Nat.le_of_lt_succ nnn.isLt)).trans (by decide)
  case ret =>
    by_cases hsp : 0 < s.sp.val
    · rw [nextPC_ret_of_pos hsp]
      have hle := s.sp.isLt
      exact (hstack ⟨s.sp.val - 1, by omega⟩).trans (by decide)
    · exact (dif_neg hsp).trans_le (by omega)
  case seImm | sneImm | seReg | sneReg | skp | sknp => exact skip_target_le ha
  all_goals exact (Nat.add_le_add_right ha 2).trans (by decide)

/-! ## `STATUS` and `FAULT` (R38, R39) -/

/-- Outside `Faulted` a state with the invariant has no record. -/
theorem State.faultConsistent.fault_eq_none {s : State} (h : s.faultConsistent) (hs : s.status ≠ .faulted) : s.fault = none := by
  unfold State.faultConsistent at h
  split at h
  · assumption
  · exact absurd h.1 hs

/-- With no record, `STATUS` and `FAULT` agree outside `Faulted`. -/
theorem State.faultConsistent_of_none {s : State} (hf : s.fault = none) (hs : s.status ≠ .faulted) : s.faultConsistent := by
  simpa only [State.faultConsistent, hf] using hs

/-! ## Steps keep the invariant -/

/-- The invariant speaks of memory, `PC`, the stack, `OPCODE`, `STATUS` and `FAULT` alone. -/
theorem State.Inv.of_eq {s t : State} (h : s.Inv) (hmem : t.mem.wf = true) (hpc : t.pc = s.pc) (hstack : t.stack = s.stack)
    (hop : t.opcode = s.opcode) (hstatus : t.status = s.status) (hfault : t.fault = s.fault) : t.Inv where
  memWf := hmem
  pcBound := hpc ▸ h.pcBound
  stackBound := hstack ▸ h.stackBound
  awaitingOpcode := hstatus ▸ hop ▸ h.awaitingOpcode
  faultRecord := by
    have hrecord := h.faultRecord
    simp only [State.faultConsistent, hfault, hstatus, hpc] at hrecord ⊢
    exact hrecord

/-- A fault taken at `PC` keeps the invariant: the record's address is where `PC` still stands. -/
theorem State.Inv.takeFault {s : State} (h : s.Inv) (c : Cause) (info : Word) (fop : Option Word) :
    (s.noPulse.takeFault c info s.pc fop).Inv where
  memWf := h.memWf
  pcBound := h.pcBound
  stackBound := h.stackBound
  awaitingOpcode := nofun
  faultRecord := ⟨rfl, rfl⟩

/-- The resume check keeps the invariant. -/
theorem State.Inv.resume {s : State} (h : s.Inv) (hs : s.status = .awaitingKey) : s.resume.Inv := by
  have hnone := h.faultRecord.fault_eq_none (by simp [hs])
  rcases s.resume_cases with ⟨k, _, e⟩ | ⟨_, e⟩ <;> rw [e]
  · exact ⟨h.memWf, h.pcBound, h.stackBound, nofun, State.faultConsistent_of_none hnone nofun⟩
  · exact h

/-- An instruction that does not fault keeps the invariant. -/
theorem State.Inv.exec {s u : State} {op : Word} {i : Instr} (h : s.Inv) (hs : s.status = .running) (hf : s.fetch = .ok op)
    (hd : decodeWord op = .ok i) (hu : Machine.exec i (s.beginExecute op) = .next u) (hnf : u.status ≠ .faulted) : u.Inv := by
  have hpc := State.pc_le_of_fetch hf
  have hadvanced : (s.beginExecute op).pc.toNat ≤ 4096 := (pc_add_two_toNat hpc).trans_le (by omega)
  have hnone : s.fault = none := h.faultRecord.fault_eq_none (by simp [hs])
  have hfault : u.fault = s.fault := exec_frame_of_not_faulted hu hnf .fault (fault_not_mem_writes i)
  refine ⟨exec_mem_wf (s := s.beginExecute op) h.memWf hu, (exec_pc hpc hu hnf).trans_le (nextPC_le i hpc h.stackBound),
    exec_stack_le hu hnf hadvanced h.stackBound, fun hwaiting => ?_, State.faultConsistent_of_none (hfault.trans hnone) hnf⟩
  cases execEnd_of_exec hu with
  | completes hstatus _ _ _ => cases hwaiting.symm.trans (hstatus.trans hs)
  | waits x hi _ _ =>
    rw [exec_opcode hu]
    exact matches_row_of_decodeWord (hi ▸ hd)
  | raises _ _ hraised => exact absurd hraised.1 hnf

/-- A step keeps the invariant: one that faults takes the fault where it began, and of the others the instruction, or the end of the
key wait, keeps it, and the tick touches nothing it speaks of. -/
theorem step_inv {s t : State} (hinv : s.Inv) (h : step s = .next t) : t.Inv := by
  have hstart : s.noPulse.Inv := hinv.of_eq hinv.memWf rfl rfl rfl rfl rfl
  by_cases hs : s.status = .faulted
  · exact next_inj.mp ((step_of_faulted hs).symm.trans h) ▸ hstart
  by_cases ht : t.status = .faulted
  · obtain ⟨c, info, fop, rfl, _⟩ := step_fault_cases h hs ht
    exact hinv.takeFault c info fop
  rcases step_cases h with ⟨hs', _⟩ | ⟨hs', rfl⟩ | ⟨_, _, rfl⟩ | ⟨_, _, _, _, rfl⟩ | ⟨hrun, op, i, u, hf, hd, hu, rfl⟩
  · exact absurd hs' hs
  · exact hstart.resume hs'
  · exact absurd rfl ht
  · exact absurd rfl ht
  · rw [State.endStep_status] at ht
    have huinv := hinv.exec hrun hf hd hu ht
    rcases (s.endStep_of_not_faulted ht).2 with e | e <;> rw [e]
    · exact huinv.of_eq huinv.memWf rfl rfl rfl rfl rfl
    · exact huinv

/-! ## The reset state and the host's operations (R300 to R310) -/

/-- The reset state meets the invariant. -/
theorem State.reset_inv : State.reset.Inv where
  memWf := State.reset_mem_wf
  pcBound := by decide
  stackBound := by simp [State.reset]
  awaitingOpcode := nofun
  faultRecord := State.faultConsistent_of_none rfl nofun

/-- What `reset` answers meets the invariant, whatever state it is called in. -/
theorem State.hostReset_inv (s : State) : s.hostReset.Inv :=
  State.reset_inv.of_eq (by rw [State.hostReset_mem]; exact State.reset_mem_wf) s.hostReset_pc s.hostReset_stack
    s.hostReset_opcode s.hostReset_status s.hostReset_fault

/-- A rejected load leaves the machine as it was. -/
theorem hostAct_load_of_error {s : State} {rom : List Byte} {e : LoadError} (h : s.load rom = .error e) :
    hostAct (.load rom) s = .next s := by
  simp only [hostAct, h]

/-- A load keeps the invariant: an image that fits ends inside the address space, and a rejected one changes nothing. -/
theorem hostAct_load_inv {s t : State} {rom : List Byte} (hinv : s.Inv) (h : hostAct (.load rom) s = .next t) : t.Inv := by
  rcases s.load_cases rom with ⟨hlen, e⟩ | ⟨_, e⟩
  · obtain rfl := next_inj.mp ((hostAct_load_of_ok e).symm.trans h)
    exact hinv.of_eq (Memory.wf_writeBytes hinv.memWf (Nat.add_le_add_left hlen 512)) rfl rfl rfl rfl rfl
  · exact next_inj.mp ((hostAct_load_of_error e).symm.trans h) ▸ hinv

/-! ## What reset leaves in memory (R300) -/

/-- Below 80 the reset byte is the font's. -/
theorem resetByte_of_lt {a : Nat} (h : a < 80) : some (resetByte a) = font[a]? := by
  have hlen : font.length = 80 := rfl
  rw [resetByte, List.getD_eq_getElem?_getD, List.getElem?_eq_getElem (hlen.symm ▸ h)]
  rfl

/-- From 80 upward the reset byte is 0. -/
theorem resetByte_of_ge {a : Nat} (h : 80 ≤ a) : resetByte a = 0#8 := by
  have hlen : font.length = 80 := rfl
  rw [resetByte, List.getD_eq_getElem?_getD, List.getElem?_eq_none (hlen ▸ h)]
  rfl

/-- `reset` and the reset state differ in the count of random draws alone. -/
theorem State.hostReset_frame (s : State) : Frame [.draws] State.reset s.hostReset := by
  intro p hp
  cases p <;> simp_all [Part.same, State.reg]

end Sys2Proof.Machine

/-! ## The obligations -/

namespace Sys2Proof.Proofs

open Sys2Proof Sys2Proof.Machine

/-- Settles O16, by the outcome of the step: faulted, waiting for a key, or completed. -/
theorem stepKeepsInvariant : Obligations.StepKeepsInvariant := by
  unfold Obligations.StepKeepsInvariant
  exact fun _ _ hinv h => step_inv hinv h

/-- Settles O17, field by field. -/
theorem resetSatisfiesInvariant : Obligations.ResetSatisfiesInvariant := by
  unfold Obligations.ResetSatisfiesInvariant
  exact State.reset_inv

/-- Settles O18: of the pieces the invariant speaks of, set_keys and clear_draw write none, load writes memory inside the address
space, and reset writes all with the reset state's values. -/
theorem hostOperationsKeepInvariant : Obligations.HostOperationsKeepInvariant := by
  unfold Obligations.HostOperationsKeepInvariant
  intro op s t hop hinv h
  cases op with
  | reset => exact next_inj.mp h ▸ s.hostReset_inv
  | load rom => exact hostAct_load_inv hinv h
  | setKeys k => exact next_inj.mp h ▸ hinv.of_eq hinv.memWf rfl rfl rfl rfl rfl
  | step => exact absurd rfl hop
  | clearDraw => exact next_inj.mp h ▸ hinv.of_eq hinv.memWf rfl rfl rfl rfl rfl

/-- Settles O51: past 3584 bytes `load` reports the length, and the host operation answers the state it was given. -/
theorem oversizedImageIsRejected : Obligations.OversizedImageIsRejected := by
  unfold Obligations.OversizedImageIsRejected
  intro rom s hlong
  rcases s.load_cases rom with ⟨hlen, _⟩ | ⟨_, e⟩
  · omega
  · exact ⟨e, hostAct_load_of_error e⟩

/-- Settles O52: the state answered is the reset state with the count of draws kept, read piece by piece. -/
theorem resetValues : Obligations.ResetValues := by
  unfold Obligations.ResetValues
  intro s
  have hread : ∀ a, s.hostReset.mem.read a = resetByte a := fun _ => rfl
  have hcells : ∀ p, FrameBuffer.cell s.hostReset.fb p = false := FrameBuffer.cell_clear
  refine ⟨s.hostReset, rfl, ?_, rfl, rfl, rfl, ?_, rfl, rfl, hcells, rfl, ?_, rfl, rfl, rfl, rfl,
    fun a ha => hread a ▸ resetByte_of_lt ha, fun a ha => hread a ▸ resetByte_of_ge ha, rfl, s.hostReset_frame⟩
  · simp [State.reg, State.reset]
  · simp [State.reset]
  · simp [State.reset]

end Sys2Proof.Proofs
end
